-- ==== Sys2Proof/Word.lean ====
section
/-! DEFINITION. The two word types of the block: bytes on the wire and 16-bit store addresses. -/

namespace Sys2Proof

/-- A byte, 8 bits, bit 0 least significant (00 R14). -/
abbrev Byte := BitVec 8

/-- An address of the Value Store's address space, also called identifier: 16 bits (20 R60). -/
abbrev Addr := BitVec 16

end Sys2Proof
end

