-- ==== Sys2Proof/Config.lean ====
section
/-! DEFINITION. What is fixed for one block (constants, parameters, hook straps) and the free values of its surroundings. -/

namespace Sys2Proof

/-- The kind argument of `StoreGetExpired` (20 R61). -/
inductive StoreKind where
  | read
  | readWrite
  deriving DecidableEq, Repr

/-- What the block reads of an IoElement: two fields and no others (20 R66). -/
structure IoElement where
  identifier : Addr
  value      : List Byte
  deriving DecidableEq, Repr

/-- The type argument of `StoreSetErrorSentinel`. The spec names one, ANALOG16, and does not enumerate
the types (70 R253, 91 N12): any other is a number here. -/
inductive SentinelType where
  | analog16
  | other (id : Nat)
  deriving DecidableEq, Repr

/-- The parameters of 00 R9 to R12 and whether each hook is connected (10 R34, 93 U15). They are straps,
fixed before reset and never written (10 R33). -/
structure Params where
  nodeIdRx       : Byte
  nodeIdTx       : Byte
  prefix1        : Byte
  prefix2        : Byte
  cmdDatablock   : Byte
  cmdReaddata    : Byte
  cmdReadreq     : Byte
  cmdWritereq    : Byte
  maxData        : Nat
  maxValueSize   : Nat
  prefixCheck    : Bool
  errorSentinels : List (SentinelType × Nat)
  forwardHook    : Bool
  debugHook      : Bool
  deriving DecidableEq, Repr

namespace Config

/-- `ACK_BYTE` and `CMD_ACK` (00 R8, R10). -/
abbrev ackByte : Byte := 0x06

/-- `NAK_BYTE` and `CMD_NAK` (00 R8, R10). -/
abbrev nakByte : Byte := 0x15

/-- `SENTINEL_ADDR` (00 R8). -/
abbrev sentinelAddr : Addr := 0xFFFF

/-- `GROUP_SIZE` (00 R8). -/
abbrev groupSize : Nat := 4

/-- FREE VALUE: what the Value Store answers to `StoreGetExpired(kind)` as its call number `n` (20 R67; log 5). -/
opaque freeExpired (n : Nat) (kind : StoreKind) : Option Nat

/-- FREE VALUE: what the Value Store answers to `StoreGetElement(index)` as its call number `n` (20 R67; log 5). -/
opaque freeElement (n : Nat) (index : Nat) : Option IoElement

/-- FREE VALUE: what the Value Store answers to `StoreGetValueSize(index)` as its call number `n` (20 R67; log 5). -/
opaque freeSize (n : Nat) (index : Nat) : Nat

/-- FREE VALUE: the debug texts of the step with number `n`, any number of any text (44 R211, 93 U6; log 12). -/
opaque freeDebug (n : Nat) : List String

end Config

namespace Params

/-- The six command codes: the four parameters, then `CMD_ACK` and `CMD_NAK` (00 R10). -/
def commandCodes (p : Params) : List Byte :=
  [p.cmdDatablock, p.cmdReaddata, p.cmdReadreq, p.cmdWritereq, Config.ackByte, Config.nakByte]

/-- The constraints of 00 R10 and R11 on the parameters; `MAX_VALUE_SIZE` is left general as 00 R11 words
the rules, at least 2. Outside them no rule is claimed to hold (93 U14). -/
abbrev Ok (p : Params) : Prop :=
  p.commandCodes.Nodup ∧ 6 ≤ p.maxData ∧ p.maxData ≤ 255 ∧ 2 ≤ p.maxValueSize

/-- The reference parameter set `P_ref` (00 R13). PRESUMED: all but the sizes and the policy is from general
knowledge and proves nothing (93 K1 to K3; log 1). The hook straps are a DESIGN CHOICE (log 13). -/
def ref : Params where
  nodeIdRx       := 0x5C
  nodeIdTx       := 0xC0
  prefix1        := 0x00
  prefix2        := 0x20
  cmdDatablock   := 0x68
  cmdReaddata    := 0x6A
  cmdReadreq     := 0x69
  cmdWritereq    := 0x6B
  maxData        := 255
  maxValueSize   := 4
  prefixCheck    := true
  errorSentinels := [(.analog16, 0x5C5C)]
  forwardHook    := true
  debugHook      := false

end Params

end Sys2Proof
end

