-- ==== Sys2Proof/Syntax.lean ====
section
/-! DEFINITION. The instructions: the seven inbound commands and the four outbound messages of the opcode table (00 R7). -/

namespace Sys2Proof

/-- Which way a message goes (30 R100, R101). -/
inductive Direction where
  | inbound
  | outbound
  deriving DecidableEq, Repr

/-- One constructor per row of the opcode table. An inbound command carries the data bytes of its frame,
also where the rules ignore them (44 R210); an outbound message carries what its bytes are made from. -/
inductive Instr where
  /-- DATABLOCK, 44 R202: the payload is a run of groups. -/
  | datablock (payload : List Byte)
  /-- READDATA, 44 R203: the payload is a run of groups. -/
  | readdata (payload : List Byte)
  /-- READREQ, 44 R204: the payload is ignored. -/
  | readreq (payload : List Byte)
  /-- WRITEREQ, 44 R205: the payload is ignored. -/
  | writereq (payload : List Byte)
  /-- ACK as a frame command, 44 R206. -/
  | ack (payload : List Byte)
  /-- NAK as a frame command, 44 R207. -/
  | nak (payload : List Byte)
  /-- UNKNOWN, 44 R208: any command byte that is none of the six codes. -/
  | unknown (command : Byte) (payload : List Byte)
  /-- The control byte `06`, 41 R150. -/
  | txAck
  /-- The control byte `15`, 41 R150. -/
  | txNak
  /-- A read request frame, 43 R188. -/
  | txReadreq (ident : Addr)
  /-- A write request frame, 43 R189. -/
  | txWritereq (ident : Addr) (value : List Byte)
  deriving DecidableEq, Repr

/-- The direction column of the opcode table. -/
def Instr.direction : Instr → Direction
  | .datablock _ => .inbound
  | .readdata _ => .inbound
  | .readreq _ => .inbound
  | .writereq _ => .inbound
  | .ack _ => .inbound
  | .nak _ => .inbound
  | .unknown _ _ => .inbound
  | .txAck => .outbound
  | .txNak => .outbound
  | .txReadreq _ => .outbound
  | .txWritereq _ _ => .outbound

end Sys2Proof
end

