-- ==== Sys2Proof/WellFormed.lean ====
section
/-! DEFINITION. Which instructions have an encoding that the block can send or receive whole. -/

namespace Sys2Proof

/-- A payload fits the data buffer (10 R28). -/
def payloadFits (p : Params) (payload : List Byte) : Bool :=
  decide (payload.length ≤ p.maxData)

/-- UNKNOWN stands for the bytes that are none of the six codes (30 R93). -/
def commandUnlisted (p : Params) (command : Byte) : Bool :=
  decide (command ∉ p.commandCodes)

/-- A write request fits the data buffer: `2 + size <= MAX_DATA` (43 R190). -/
def requestFits (p : Params) (value : List Byte) : Bool :=
  decide (2 + value.length ≤ p.maxData)

/-- The checks on an instruction, per constructor. -/
def wellFormed (p : Params) : Instr → Bool
  | .datablock payload => payloadFits p payload
  | .readdata payload => payloadFits p payload
  | .readreq payload => payloadFits p payload
  | .writereq payload => payloadFits p payload
  | .ack payload => payloadFits p payload
  | .nak payload => payloadFits p payload
  | .unknown command payload => commandUnlisted p command && payloadFits p payload
  | .txAck => true
  | .txNak => true
  | .txReadreq _ => true
  | .txWritereq _ value => requestFits p value

end Sys2Proof
end

