-- ==== Sys2Proof/Decode.lean ====
section
/-! DEFINITION. The pure codec: checksum, frame decode and encode, the command map, and the instructions they stand for. -/

namespace Sys2Proof

/-! ### Byte order of the two 16-bit fields (20 R68, R69; 30 R97, R98) -/

/-- A group address is assembled high byte first (30 R97). -/
def addrOfBytes (hi lo : Byte) : Addr := hi ++ lo

/-- The byte of a request identifier that is sent first (30 R98). -/
def identLow (ident : Addr) : Byte := ident.extractLsb' 0 8

/-- The byte of a request identifier that is sent second (30 R98). -/
def identHigh (ident : Addr) : Byte := ident.extractLsb' 8 8

/-- The identifier that a request's first two data bytes hold. -/
def identOfBytes (lo hi : Byte) : Addr := hi ++ lo

/-! ### Checksum (40 R120) -/

/-- `xor8`: the bytes are taken in from the left, starting at 0 (40 R120). -/
def xor8 (bytes : List Byte) : Byte :=
  bytes.foldl (fun acc b => acc ^^^ b) 0

/-- The checksum covers command, length and data (40 R120). -/
def checksum (cmd len : Byte) (data : List Byte) : Byte :=
  xor8 (cmd :: len :: data)

/-! ### Frames (30 R90, 40 R122, R123) -/

/-- The fields of a decoded frame (40 R123). -/
structure Frame where
  node     : Byte
  command  : Byte
  length   : Byte
  data     : List Byte
  checksum : Byte
  deriving DecidableEq, Repr

/-- Why a byte sequence is no frame or no message. `checksumError` is the one failure 40 R123 names; the two
before it say that its precondition fails (93 U11), the two after it that a frame is no outbound message (30 R101). -/
inductive DecodeError where
  /-- fewer than 6 bytes (40 R123, precondition) -/
  | tooShort
  /-- not `6 + s[4]` bytes (40 R123, precondition) -/
  | lengthMismatch
  /-- the trailing byte is not the checksum (40 R123) -/
  | checksumError
  /-- an outbound frame starts with `NODE_ID_TX PREFIX1 PREFIX2` (30 R101) -/
  | notOutboundHeader
  /-- an outbound frame is a READREQ of length 2 or a WRITEREQ of length at least 2 (30 R101) -/
  | notOutboundRequest
  deriving DecidableEq, Repr

/-- `decode` (40 R123): total, its precondition and the checksum failure rejected by name. -/
def decodeFrame : List Byte → Except DecodeError Frame
  | node :: _ :: _ :: cmd :: len :: rest =>
    if rest.length = 0 then .error .tooShort
    else if rest.length ≠ len.toNat + 1 then .error .lengthMismatch
    else if checksum cmd len (rest.take len.toNat) = rest.getD len.toNat 0 then
      .ok { node := node, command := cmd, length := len, data := rest.take len.toNat, checksum := rest.getD len.toNat 0 }
    else .error .checksumError
  | _ => .error .tooShort

/-- `encode` (40 R122): length byte and checksum are computed from the data. -/
def encodeFrame (p : Params) (node cmd : Byte) (data : List Byte) : List Byte :=
  [node, p.prefix1, p.prefix2, cmd, BitVec.ofNat 8 data.length] ++ data
    ++ [checksum cmd (BitVec.ofNat 8 data.length) data]

/-! ### The command map (30 R93) -/

/-- The Frame field `command` as a class (30 R93). -/
inductive CommandClass where
  | datablock
  | readdata
  | readreq
  | writereq
  | ack
  | nak
  | unknown
  deriving DecidableEq, Repr

/-- `classify` (30 R93). -/
def classify (p : Params) (c : Byte) : CommandClass :=
  if c = p.cmdDatablock then .datablock
  else if c = p.cmdReaddata then .readdata
  else if c = p.cmdReadreq then .readreq
  else if c = p.cmdWritereq then .writereq
  else if c = Config.ackByte then .ack
  else if c = Config.nakByte then .nak
  else .unknown

/-- The inbound instruction of a command byte with a payload: selection is by the command byte alone (30 R100). -/
def inboundInstr (p : Params) (cmd : Byte) (payload : List Byte) : Instr :=
  match classify p cmd with
  | .datablock => .datablock payload
  | .readdata => .readdata payload
  | .readreq => .readreq payload
  | .writereq => .writereq payload
  | .ack => .ack payload
  | .nak => .nak payload
  | .unknown => .unknown cmd payload

/-- The decoder of received frames: the checksum gate, then the command map (30 R100, R104). -/
def decodeInbound (p : Params) (bytes : List Byte) : Except DecodeError Instr :=
  match decodeFrame bytes with
  | .ok f => .ok (inboundInstr p f.command f.data)
  | .error e => .error e

/-- The outbound request that a frame's command and data stand for (30 R101). -/
def outboundRequest (p : Params) (cmd : Byte) (data : List Byte) : Except DecodeError Instr :=
  match classify p cmd, data with
  | .readreq, [lo, hi] => .ok (.txReadreq (identOfBytes lo hi))
  | .writereq, lo :: hi :: value => .ok (.txWritereq (identOfBytes lo hi) value)
  | _, _ => .error .notOutboundRequest

/-- The decoder of sent messages: a control byte, or a request frame with the block's own header (30 R91, R101). -/
def decodeOutbound (p : Params) (bytes : List Byte) : Except DecodeError Instr :=
  if bytes = [Config.ackByte] then .ok .txAck
  else if bytes = [Config.nakByte] then .ok .txNak
  else
    match decodeFrame bytes with
    | .ok f =>
      if bytes.take 3 = [p.nodeIdTx, p.prefix1, p.prefix2] then outboundRequest p f.command f.data
      else .error .notOutboundHeader
    | .error e => .error e

/-- The decoder of a message that goes in direction `d`. -/
def decodeMessage (p : Params) (d : Direction) (bytes : List Byte) : Except DecodeError Instr :=
  match d with
  | .inbound => decodeInbound p bytes
  | .outbound => decodeOutbound p bytes

/-! ### The encoder -/

/-- The data of a request frame: identifier low byte first, then the value bytes (30 R94, R95). -/
def requestData (ident : Addr) (value : List Byte) : List Byte :=
  identLow ident :: identHigh ident :: value

/-- The bytes of an instruction on the wire (30 R90, R91, R94, R95, R101). -/
def encode (p : Params) : Instr → List Byte
  | .datablock payload => encodeFrame p p.nodeIdRx p.cmdDatablock payload
  | .readdata payload => encodeFrame p p.nodeIdRx p.cmdReaddata payload
  | .readreq payload => encodeFrame p p.nodeIdRx p.cmdReadreq payload
  | .writereq payload => encodeFrame p p.nodeIdRx p.cmdWritereq payload
  | .ack payload => encodeFrame p p.nodeIdRx Config.ackByte payload
  | .nak payload => encodeFrame p p.nodeIdRx Config.nakByte payload
  | .unknown command payload => encodeFrame p p.nodeIdRx command payload
  | .txAck => [Config.ackByte]
  | .txNak => [Config.nakByte]
  | .txReadreq ident => encodeFrame p p.nodeIdTx p.cmdReadreq (requestData ident [])
  | .txWritereq ident value => encodeFrame p p.nodeIdTx p.cmdWritereq (requestData ident value)

/-! ### The opcode table's words -/

/-- The command byte that the table's word gives: a row's word is the 8-bit command byte of a frame. -/
def tableCommand (nbits w : Nat) : Byte := BitVec.ofNat 8 (w % 2 ^ nbits)

/-- The table's word under `P_ref`, as a received frame with no data (length 0) around the row's command byte.
The outbound rows hold the same bytes as inbound ones; a word is read in the inbound direction (log 9). -/
def decodeTableWord (nbits w : Nat) : Option Instr :=
  match decodeInbound Params.ref (encodeFrame Params.ref Params.ref.nodeIdRx (tableCommand nbits w) []) with
  | .ok i => some i
  | .error _ => none

end Sys2Proof
end

