-- ==== Sys2Proof/Machine/State.lean ====
section
/-! DEFINITION. The state of the block and of its surroundings, the reasons a step can stop, and the state after reset. -/

namespace Sys2Proof.Machine

/-- A byte buffer: the bytes that differ from what an unlisted index reads as, by rising index. -/
abbrev Memory := List Host.Cell

/-- `rx_phase`: which field of the wire layout the next byte is (10 R21). -/
inductive Phase where
  | hunt
  | pfx1
  | pfx2
  | cmd
  | len
  | data
  | csum
  deriving DecidableEq, Repr

/-- The condition codes (60 R220). -/
inductive Cond where
  | none
  | checksum
  | unknownCommand
  | noPending
  | missingElement
  | overlength
  | reqTooLong
  deriving DecidableEq, Repr

/-- The frame registers of the receive assembler (10 R20 to R28). -/
structure RxRegs where
  phase   : Phase
  node    : Byte
  cmd     : Byte
  len     : Byte
  cnt     : Byte
  xor     : Byte
  overLen : Bool
  buf     : Memory
  deriving DecidableEq, Repr

/-- The registers of the Data-Block Decoder (10 R29). -/
structure DecRegs where
  addr      : Addr
  addrValid : Bool
  val       : Memory
  size      : Nat
  pos       : Nat
  deriving DecidableEq, Repr

/-- The staging registers of the Request Builder (10 R30). -/
structure TxRegs where
  node : Byte
  cmd  : Byte
  len  : Byte
  buf  : Memory
  deriving DecidableEq, Repr

/-- The status flags (10 R31). -/
structure FlagRegs where
  valid   : Bool
  handled : Bool
  cond    : Cond
  deriving DecidableEq, Repr

/-- The output event alphabet (00 R16), each store call with its answer. `DBG` goes to `DebugPort` (93 U6; log 12). -/
inductive Event where
  | tx (bytes : List Byte)
  | getExp (kind : StoreKind) (answer : Option Nat)
  | getElem (index : Nat) (answer : Option IoElement)
  | getSize (index : Nat) (size : Nat)
  | set (address : Addr) (bytes : List Byte) (size : Nat)
  | setErr (type : SentinelType) (value : Nat)
  | fwdV (address : Addr) (bytes : List Byte) (size : Nat)
  | fwdF (bytes : List Byte)
  | status (valid handled : Bool) (cond : Cond)
  deriving DecidableEq, Repr

/-- What the surroundings feed the block: a received byte, or `reset` (10 R37, 70 R250). -/
inductive Input where
  | byte (b : Byte)
  | reset
  deriving DecidableEq, Repr

/-- The Value Store as the block meets it (20 R67): the answers it is going to give, next first, and the number
of calls answered so far, which picks a fresh free answer once a list is used up (log 5). -/
structure StorePort where
  expired  : List (Option Nat)
  elements : List (Option IoElement)
  sizes    : List Nat
  calls    : Nat
  deriving DecidableEq, Repr

/-- The debug sink (44 R211): the texts put out so far, and the number of the next step's free texts (log 12). -/
structure DebugPort where
  out : List String
  seq : Nat
  deriving DecidableEq, Repr

/-- The block (10 R20: `rx`, `dec`, `tx`, `flags`), its straps (10 R33, R34: `params`), and its surroundings (00 R17). -/
structure State where
  params       : Params
  rx           : RxRegs
  dec          : DecRegs
  tx           : TxRegs
  flags        : FlagRegs
  startPending : Bool
  input        : List Input
  store        : StorePort
  trace        : List Event
  dbg          : DebugPort
  deriving DecidableEq, Repr

/-- Why a run stops with a fault. -/
inductive Fault where
  /-- Raised by the frame completion when the payload to be handled is longer than `rxbuf` (10 R28: it has MAX_DATA
  entries). Safe; no state that keeps the invariant of Safety reaches it (log 16). -/
  | bufferBounds (len : Nat) (maxData : Nat)
  deriving DecidableEq, Repr

/-- Why a step has no meaning. -/
inductive Refusal where
  /-- Raised by an arm of `exec` whose instruction has no meaning. Safe. No arm of this model raises it. -/
  | notModelled (mnemonic : String)
  /-- Raised by WRITEREQ when the Value Store registers a size larger than the value bytes its element holds: 93 U12
  says `refuse`. Safe (log 11). -/
  | storeContract (index : Nat) (size : Nat) (held : Nat)
  deriving DecidableEq, Repr

/-- The frame registers after reset: HUNT (10 R38); the others are unspecified and named in log 2 and 3. -/
def RxRegs.reset : RxRegs where
  phase := .hunt
  node  := 0
  cmd   := 0
  len   := 0
  cnt   := 0
  xor   := 0
  overLen := false
  buf   := []

/-- The decoder's registers after reset: unspecified (10 R38), named in log 2 and 3. -/
def DecRegs.reset : DecRegs where
  addr      := 0
  addrValid := false
  val       := []
  size      := 0
  pos       := 0

/-- The staging registers after reset: unspecified (10 R38), named in log 2 and 3. -/
def TxRegs.reset : TxRegs where
  node := 0
  cmd  := 0
  len  := 0
  buf  := []

/-- The flags after reset: unspecified (10 R38), named in log 2. -/
def FlagRegs.reset : FlagRegs where
  valid   := false
  handled := false
  cond    := .none

/-- The machine right after reset (10 R38, 70 R250): nothing put out, nothing received, the start-up registration
of 70 R253 still to come. The parameters are `P_ref` (log 1). -/
def State.reset : State where
  params       := Params.ref
  rx           := RxRegs.reset
  dec          := DecRegs.reset
  tx           := TxRegs.reset
  flags        := FlagRegs.reset
  startPending := true
  input        := []
  store        := { expired := [], elements := [], sizes := [], calls := 0 }
  trace        := []
  dbg        := { out := [], seq := 0 }

end Sys2Proof.Machine
end

