-- ==== Sys2Proof/Machine/Ops.lean ====
section
/-! DEFINITION. The shared operations: buffers, output events, calls to the collaborators, raising a condition and the
return from one, reset and start-up. -/

namespace Sys2Proof.Machine

/-! ### Byte buffers (20 R60, R74) -/

/-- What an index of a buffer reads as before it is written. DESIGN CHOICE, unsafe: the spec gives none (log 3). -/
def unlistedByte : Byte := 0x00

/-- The canonical form: indices strictly rising, no entry equal to what an unlisted index reads as. -/
abbrev Memory.wf (m : Memory) : Prop :=
  m.Pairwise (fun c d => c.1 < d.1) ∧ ∀ c ∈ m, c.2 ≠ unlistedByte

/-- One byte of a buffer. -/
def Memory.read : Memory → Nat → Byte
  | [], _ => unlistedByte
  | (k, v) :: m, a => if k = a then v else Memory.read m a

/-- `MemRead(a, n)` (00 R15). -/
def Memory.readN (m : Memory) : Nat → Nat → List Byte
  | _, 0 => []
  | a, n + 1 => m.read a :: Memory.readN m (a + 1) n

/-- One cell in front of a buffer's rest, left out where it holds what an unlisted index reads as. -/
def Memory.consCell (a : Nat) (v : Byte) (m : Memory) : Memory :=
  if v = unlistedByte then m else (a, v) :: m

/-- `MemWrite(a, 1, v)` (00 R15), keeping the canonical form. -/
def Memory.write : Memory → Nat → Byte → Memory
  | [], a, v => Memory.consCell a v []
  | (k, w) :: m, a, v =>
    if a < k then Memory.consCell a v ((k, w) :: m)
    else if a = k then Memory.consCell a v m
    else (k, w) :: Memory.write m a v

/-- `MemWrite(a, n, v)` (00 R15): bytes to consecutive indices from `a`. -/
def Memory.writeN : Memory → Nat → List Byte → Memory
  | m, _, [] => m
  | m, a, v :: vs => Memory.writeN (m.write a v) (a + 1) vs

/-! ### Output events and hooks (00 R16) -/

/-- Append one event to the trace: events stand in the order the rules reach them (20 R80). -/
def emit (e : Event) (s : State) : State :=
  { s with trace := s.trace ++ [e] }

/-- `Tx(bytes)` (40 R134): one transport write of one reply. -/
def transmit (bytes : List Byte) (s : State) : State :=
  emit (.tx bytes) s

/-- An event of the forward hook; a hook that is not connected drops its events (10 R37, 93 U15). -/
def emitForward (e : Event) (s : State) : State :=
  if s.params.forwardHook then emit e s else s

/-- `FwdValue` (42 R173, 44 R212). -/
def forwardValue (address : Addr) (bytes : List Byte) (size : Nat) (s : State) : State :=
  emitForward (.fwdV address bytes size) s

/-- `FwdFrame` (43 R194, 44 R212). -/
def forwardFrame (bytes : List Byte) (s : State) : State :=
  emitForward (.fwdF bytes) s

/-- The debug texts of one step, if the sink is connected: any number of any text, with no other effect
(44 R211, 93 U6; log 12). -/
def debugTexts (s : State) : State :=
  if s.params.debugHook then
    { s with dbg := { out := s.dbg.out ++ Config.freeDebug s.dbg.seq, seq := s.dbg.seq + 1 } }
  else s

/-! ### The Value Store's calls (20 R61 to R65) -/

/-- The store's answer to `StoreGetExpired`: the next listed one, else a free one (20 R67; log 5). -/
def expiredAnswer (kind : StoreKind) (s : State) : Option Nat :=
  s.store.expired.headD (Config.freeExpired s.store.calls kind)

/-- The store's answer to `StoreGetElement`: the next listed one, else a free one (20 R67; log 5). -/
def elementAnswer (index : Nat) (s : State) : Option IoElement :=
  s.store.elements.headD (Config.freeElement s.store.calls index)

/-- The store's answer to `StoreGetValueSize`: the next listed one, else a free one (20 R67; log 5). -/
def sizeAnswer (index : Nat) (s : State) : Nat :=
  s.store.sizes.headD (Config.freeSize s.store.calls index)

/-- `StoreGetExpired(kind)` (20 R61), one GETEXP event: the state after the call. -/
def callExpired (kind : StoreKind) (s : State) : State :=
  emit (.getExp kind (expiredAnswer kind s))
    { s with store := { s.store with expired := s.store.expired.tail, calls := s.store.calls + 1 } }

/-- `StoreGetElement(index)` (20 R62), one GETELEM event: the state after the call. -/
def callElement (index : Nat) (s : State) : State :=
  emit (.getElem index (elementAnswer index s))
    { s with store := { s.store with elements := s.store.elements.tail, calls := s.store.calls + 1 } }

/-- `StoreGetValueSize(index)` (20 R63), one GETSIZE event: the state after the call. -/
def callSize (index : Nat) (s : State) : State :=
  emit (.getSize index (sizeAnswer index s))
    { s with store := { s.store with sizes := s.store.sizes.tail, calls := s.store.calls + 1 } }

/-- `StoreSetValue` (20 R64). -/
def storeSetValue (address : Addr) (bytes : List Byte) (size : Nat) (s : State) : State :=
  emit (.set address bytes size) s

/-- `StoreSetErrorSentinel` (20 R65). -/
def storeSetErrorSentinel (type : SentinelType) (value : Nat) (s : State) : State :=
  emit (.setErr type value) s

/-! ### Conditions: what stands for taking an exception and returning from one (60 R220, R231, R232) -/

/-- A condition with the value it records; only the code is kept, the value is for a debug text (60 R220; log 19). -/
inductive Condition where
  | checksum (computed received : Byte)
  | unknownCommand (cmd : Byte)
  | noPending (kind : StoreKind)
  | missingElement (index : Nat)
  | overlength (len : Byte)
  | reqTooLong (index : Option Nat) (size : Nat)
  deriving DecidableEq, Repr

/-- The name that goes to `f_cond`. -/
def Condition.cond : Condition → Cond
  | .checksum _ _ => .checksum
  | .unknownCommand _ => .unknownCommand
  | .noPending _ => .noPending
  | .missingElement _ => .missingElement
  | .overlength _ => .overlength
  | .reqTooLong _ _ => .reqTooLong

/-- The 4-bit code of a condition (60 R220). -/
def Cond.code : Cond → BitVec 4
  | .none => 0
  | .checksum => 1
  | .unknownCommand => 2
  | .noPending => 3
  | .missingElement => 4
  | .overlength => 5
  | .reqTooLong => 6

/-- `raise X(info)`: writes `f_cond` and nothing else, and control goes on (60 R231). -/
def raise (c : Condition) (s : State) : State :=
  { s with flags := { s.flags with cond := c.cond } }

/-- `Status`, the last event of a frame (44 R213). -/
def reportStatus (s : State) : State :=
  emit (.status s.flags.valid s.flags.handled s.flags.cond) s

/-! ### Replies (41 R150) -/

/-- The reply `06`. -/
def sendAck (s : State) : State := transmit [Config.ackByte] s

/-- The reply `15`. -/
def sendNak (s : State) : State := transmit [Config.nakByte] s

/-- A builder failure: its condition is raised and a bare ACK is the reply (43 R195). -/
def fallBackToAck (c : Condition) (s : State) : State := sendAck (raise c s)

/-! ### Reset and start-up (70 R250, R253) -/

/-- `reset`: HUNT, everything else of the block unspecified; no event (10 R38, 70 R250). The values named for
the unspecified registers are those of `State.reset` (log 2). -/
def assertReset (s : State) : State :=
  { s with rx := RxRegs.reset, dec := DecRegs.reset, tx := TxRegs.reset, flags := FlagRegs.reset, startPending := true }

/-- The start-up registration: one call per entry of `ERROR_SENTINELS`, in list order (70 R253). -/
def registerSentinels (s : State) : State :=
  let t := s.params.errorSentinels.foldl (fun acc entry => storeSetErrorSentinel entry.1 entry.2 acc) s
  { t with startPending := false }

/-- The state in which a step handles the input it has just consumed. -/
def State.taking (s : State) (rest : List Input) : State :=
  debugTexts { s with input := rest }

/-! ### Sequencing outcomes -/

/-- Go on from a next state; a fault or refusal stays. -/
def andThen (o : Host.Outcome State Fault Refusal) (f : State → State) : Host.Outcome State Fault Refusal :=
  match o with
  | .next s => .next (f s)
  | .fault r => .fault r
  | .refused r => .refused r

end Sys2Proof.Machine
end

