-- ==== Sys2Proof/Machine/Operands.lean ====
section
/-! DEFINITION. The operand forms: the latched frame, the fields of a group, the staged request. -/

namespace Sys2Proof.Machine

/-- The payload of the latched frame, `rxbuf[0 .. rx_len)` (42 R165, 44 R202). -/
def rxPayload (s : State) : List Byte :=
  s.rx.buf.readN 0 s.rx.len.toNat

/-- The instruction that the latched frame is: its command byte's class with its payload (44 R200). -/
def fetchInstr (s : State) : Instr :=
  inboundInstr s.params s.rx.cmd (rxPayload s)

/-- The wire bytes of the frame that checksum byte `b` completes (30 R90). The prefix bytes are not stored
(40 R126); they stand here as the parameters say. -/
def latchedFrame (s : State) (b : Byte) : List Byte :=
  [s.rx.node, s.params.prefix1, s.params.prefix2, s.rx.cmd, s.rx.len] ++ rxPayload s ++ [b]

/-- One byte of a payload. -/
def payloadByte (payload : List Byte) (i : Nat) : Byte := payload.getD i 0

/-- The address field of the group at `pos`, high byte first (42 R167). -/
def groupAddr (payload : List Byte) (pos : Nat) : Addr :=
  addrOfBytes (payloadByte payload pos) (payloadByte payload (pos + 1))

/-- The accumulated value bytes, `cur_val[0 .. cur_size)` (42 R173). -/
def curValue (s : State) : List Byte := s.dec.val.readN 0 s.dec.size

/-- The bytes of the staged frame: `encode` of the staging registers (43 R194). -/
def stagedFrame (s : State) : List Byte :=
  encodeFrame s.params s.tx.node s.tx.cmd (s.tx.buf.readN 0 s.tx.len.toNat)

end Sys2Proof.Machine
end

