-- ==== Sys2Proof/Machine/Flags.lean ====
section
/-! DEFINITION. The status flags: the verdict on a completed frame, the dispatch result, the condition of an invalid frame. -/

namespace Sys2Proof.Machine

/-- `f_valid` of the frame that checksum byte `b` completes (40 R131). -/
def verdict (b : Byte) (s : State) : Bool :=
  decide (s.rx.xor = b) && !s.rx.overLen

/-- The flags and the phase as frame completion sets them (40 R131). -/
def latchVerdict (b : Byte) (s : State) : State :=
  { s with
    flags := { valid := verdict b s, handled := false, cond := .none }
    rx := { s.rx with phase := .hunt } }

/-- The dispatch result (44 R209). -/
def setHandled (v : Bool) (s : State) : State :=
  { s with flags := { s.flags with handled := v } }

/-- The condition of an invalid frame: over-length before checksum (40 R131, 60 R229). -/
def invalidCondition (b : Byte) (s : State) : Condition :=
  if s.rx.overLen then .overlength s.rx.len else .checksum s.rx.xor b

end Sys2Proof.Machine
end

