-- ==== Sys2Proof/Machine/Control.lean ====
section
/-! DEFINITION. The unhandled commands ACK, NAK and UNKNOWN (44 R206 to R208) and the two control bytes (41 R150). -/

namespace Sys2Proof.Machine

/-- What a command that is not handled does: ACK, then not handled and its condition (41 R154, 44 R208). -/
def handleUnhandled (cmd : Byte) (s : State) : State :=
  raise (.unknownCommand cmd) (setHandled false (sendAck s))

/-- ACK as a frame command (44 R206). -/
def execAck (_payload : List Byte) (s : State) : Host.Outcome State Fault Refusal :=
  .next (handleUnhandled Config.ackByte s)

/-- NAK as a frame command (44 R207). -/
def execNak (_payload : List Byte) (s : State) : Host.Outcome State Fault Refusal :=
  .next (handleUnhandled Config.nakByte s)

/-- UNKNOWN (44 R208). -/
def execUnknown (command : Byte) (_payload : List Byte) (s : State) : Host.Outcome State Fault Refusal :=
  .next (handleUnhandled command s)

/-- TX_ACK (41 R150). -/
def execTxAck (s : State) : Host.Outcome State Fault Refusal := .next (sendAck s)

/-- TX_NAK (41 R150). -/
def execTxNak (s : State) : Host.Outcome State Fault Refusal := .next (sendNak s)

end Sys2Proof.Machine
end

