-- ==== Sys2Proof/Machine/DataBlock.lean ====
section
/-! DEFINITION. The Data-Block Decoder (42) and the two commands that run it: DATABLOCK and READDATA. -/

namespace Sys2Proof.Machine

/-- The set-up of a decode (42 R166). `cur_addr` and `cur_val` are left as they are (log 4). -/
def decodeStart (s : State) : State :=
  { s with dec := { s.dec with size := 0, addrValid := false, pos := 0 } }

/-- `flush()` (42 R173): emit the element if it has a real address, and reset accumulation. -/
def flush (s : State) : State :=
  let t :=
    if s.dec.addrValid then
      forwardValue s.dec.addr (curValue s) s.dec.size (storeSetValue s.dec.addr (curValue s) s.dec.size s)
    else s
  { t with dec := { t.dec with size := 0 } }

/-- Flush a non-empty accumulator (42 R168 without its address test, R172). -/
def flushNonempty (s : State) : State :=
  if s.dec.size ≠ 0 then flush s else s

/-- Step 2 (42 R168): a real address flushes what is accumulated. -/
def flushOnAddress (a : Addr) (s : State) : State :=
  if a ≠ Config.sentinelAddr then flushNonempty s else s

/-- Step 3 (42 R169): take a real address. -/
def takeAddress (a : Addr) (s : State) : State :=
  if a ≠ Config.sentinelAddr then { s with dec := { s.dec with addr := a, addrValid := true } } else s

/-- Step 4 (42 R170): append the two value bytes if there is room. -/
def appendValue (v0 v1 : Byte) (s : State) : State :=
  if s.dec.size < s.params.maxValueSize - 1 then
    { s with dec := { s.dec with
        val := (s.dec.val.write s.dec.size v0).write (s.dec.size + 1) v1
        size := s.dec.size + 2 } }
  else s

/-- Step 5 (42 R171). -/
def advanceGroup (s : State) : State :=
  { s with dec := { s.dec with pos := s.dec.pos + Config.groupSize } }

/-- Steps 1 to 5 on the group at `pos` (42 R167 to R171). -/
def groupStep (payload : List Byte) (s : State) : State :=
  let a := groupAddr payload s.dec.pos
  let v0 := payloadByte payload (s.dec.pos + 2)
  let v1 := payloadByte payload (s.dec.pos + 3)
  advanceGroup (appendValue v0 v1 (takeAddress a (flushOnAddress a s)))

/-- The loop `while pos + 4 <= n` (42 R171), with fuel. -/
def groupLoop (payload : List Byte) : Nat → State → State
  | 0, s => s
  | fuel + 1, s =>
    if s.dec.pos + Config.groupSize ≤ payload.length then groupLoop payload fuel (groupStep payload s) else s

/-- `decode_elements(payload)` (42 R165): set-up, loop, end-of-payload flush (42 R172). -/
def decodeElements (payload : List Byte) (s : State) : State :=
  flushNonempty (groupLoop payload payload.length (decodeStart s))

/-- What the two data-carrying commands do: ACK before any decoding (41 R152), decode, handled (44 R202). -/
def handleData (payload : List Byte) (s : State) : State :=
  setHandled true (decodeElements payload (sendAck s))

/-- DATABLOCK (44 R202). -/
def execDatablock (payload : List Byte) (s : State) : Host.Outcome State Fault Refusal :=
  .next (handleData payload s)

/-- READDATA (44 R203). -/
def execReaddata (payload : List Byte) (s : State) : Host.Outcome State Fault Refusal :=
  .next (handleData payload s)

end Sys2Proof.Machine
end

