-- ==== Sys2Proof/Machine/Request.lean ====
section
/-! DEFINITION. The Request Builder (43), the two commands that ask it for a frame, and the two request frames as messages. -/

namespace Sys2Proof.Machine

/-! ### Staging and sending (43 R188, R189, R194) -/

/-- Stage a request frame: constant node, the command, length and data (43 R188, R189, R192). -/
def stageRequest (cmd : Byte) (data : List Byte) (s : State) : State :=
  { s with tx :=
      { node := s.params.nodeIdTx
        cmd := cmd
        len := BitVec.ofNat 8 data.length
        buf := s.tx.buf.writeN 0 data } }

/-- Forward, then transmit the staged frame, the same bytes (43 R194). -/
def sendStaged (s : State) : State :=
  transmit (stagedFrame s) (forwardFrame (stagedFrame s) s)

/-- `build_read_request` and its sending (43 R188, R194). -/
def sendReadRequest (ident : Addr) (s : State) : State :=
  sendStaged (stageRequest s.params.cmdReadreq (requestData ident []) s)

/-- `build_write_request` and its sending, once its size is known to fit (43 R189, R194). -/
def sendWriteRequest (ident : Addr) (value : List Byte) (s : State) : State :=
  sendStaged (stageRequest s.params.cmdWritereq (requestData ident value) s)

/-- The length bound, on unbounded naturals (43 R190). -/
def tooLong (size : Nat) (s : State) : Bool :=
  decide (s.params.maxData < 2 + size)

/-! ### Acquiring the entry (43 R186, R187) -/

/-- What acquiring an entry gives: the entry, or the condition of the failure. -/
inductive Acquired where
  | entry (index : Nat) (element : IoElement)
  | failed (c : Condition)
  deriving DecidableEq, Repr

/-- The result of acquiring an entry of kind `kind` (43 R186, R187). -/
def acquired (kind : StoreKind) (s : State) : Acquired :=
  match expiredAnswer kind s with
  | none => .failed (.noPending kind)
  | some index =>
    match elementAnswer index (callExpired kind s) with
    | none => .failed (.missingElement index)
    | some element => .entry index element

/-- The state after acquiring: GETEXP, then GETELEM only if an index came back (43 R195). -/
def acquire (kind : StoreKind) (s : State) : State :=
  match expiredAnswer kind s with
  | none => callExpired kind s
  | some index => callElement index (callExpired kind s)

/-! ### The commands -/

/-- The state in which READREQ ends (44 R204). -/
def answerReadreq (s : State) : State :=
  match acquired .read s with
  | .failed c => fallBackToAck c (acquire .read s)
  | .entry _ element => sendReadRequest element.identifier (acquire .read s)

/-- READREQ (44 R204); the payload is ignored (44 R210). -/
def execReadreq (_payload : List Byte) (s : State) : Host.Outcome State Fault Refusal :=
  .next (answerReadreq (setHandled true s))

/-- The write request of an acquired entry, after GETSIZE answered `size` (43 R189, R190). A store whose element
holds fewer bytes than its size breaks its contract: refused (93 U12; log 11). -/
def writeEntry (index size : Nat) (element : IoElement) (s : State) : Host.Outcome State Fault Refusal :=
  if tooLong size s then .next (fallBackToAck (.reqTooLong (some index) size) s)
  else if element.value.length < size then .refused (.storeContract index size element.value.length)
  else .next (sendWriteRequest element.identifier (element.value.take size) s)

/-- The outcome of WRITEREQ from the state in which it is handled (44 R205). -/
def answerWritereq (s : State) : Host.Outcome State Fault Refusal :=
  match acquired .readWrite s with
  | .failed c => .next (fallBackToAck c (acquire .readWrite s))
  | .entry index element =>
    writeEntry index (sizeAnswer index (acquire .readWrite s)) element (callSize index (acquire .readWrite s))

/-- WRITEREQ (44 R205); the payload is ignored (44 R210). -/
def execWritereq (_payload : List Byte) (s : State) : Host.Outcome State Fault Refusal :=
  answerWritereq (setHandled true s)

/-! ### The request frames as messages (30 R101) -/

/-- TX_READREQ: build, forward and transmit the frame of identifier `ident` (43 R188, R194). -/
def execTxReadreq (ident : Addr) (s : State) : Host.Outcome State Fault Refusal :=
  .next (sendReadRequest ident s)

/-- TX_WRITEREQ: build, forward and transmit the frame, or fall back to ACK where it does not fit (43 R189, R190, R194). -/
def execTxWritereq (ident : Addr) (value : List Byte) (s : State) : Host.Outcome State Fault Refusal :=
  .next (if tooLong value.length s then fallBackToAck (.reqTooLong none value.length) s else sendWriteRequest ident value s)

end Sys2Proof.Machine
end

