-- ==== Sys2Proof/Machine/Dispatch.lean ====
section
/-! DEFINITION. One arm per instruction. -/

namespace Sys2Proof.Machine

def exec (i : Instr) (s : State) : Host.Outcome State Fault Refusal :=
  match i with
  | .datablock payload => Sys2Proof.Machine.execDatablock payload s
  | .readdata payload => Sys2Proof.Machine.execReaddata payload s
  | .readreq payload => Sys2Proof.Machine.execReadreq payload s
  | .writereq payload => Sys2Proof.Machine.execWritereq payload s
  | .ack payload => Sys2Proof.Machine.execAck payload s
  | .nak payload => Sys2Proof.Machine.execNak payload s
  | .unknown command payload => Sys2Proof.Machine.execUnknown command payload s
  | .txAck => Sys2Proof.Machine.execTxAck s
  | .txNak => Sys2Proof.Machine.execTxNak s
  | .txReadreq ident => Sys2Proof.Machine.execTxReadreq ident s
  | .txWritereq ident value => Sys2Proof.Machine.execTxWritereq ident value s

end Sys2Proof.Machine
end

