-- ==== Sys2Proof/Machine/Receive.lean ====
section
/-! DEFINITION. The receive assembler, one operation per phase (40 R125 to R131), and the completion of a frame. -/

namespace Sys2Proof.Machine

/-- HUNT (40 R125). -/
def huntByte (b : Byte) (s : State) : State :=
  if b = s.params.nodeIdRx then { s with rx := { s.rx with node := b, phase := .pfx1 } }
  else { s with rx := { s.rx with phase := .hunt } }

/-- A byte at offset 1 or 2: a mismatch returns to HUNT and looks at the same byte again (40 R126, R127). -/
def prefixByte (expected : Byte) (next : Phase) (b : Byte) (s : State) : State :=
  if s.params.prefixCheck ∧ b ≠ expected then huntByte b { s with rx := { s.rx with phase := .hunt } }
  else { s with rx := { s.rx with phase := next } }

/-- PFX1 (40 R126). -/
def pfx1Byte (b : Byte) (s : State) : State := prefixByte s.params.prefix1 .pfx2 b s

/-- PFX2 (40 R127). -/
def pfx2Byte (b : Byte) (s : State) : State := prefixByte s.params.prefix2 .cmd b s

/-- CMD (40 R128). -/
def cmdByte (b : Byte) (s : State) : State :=
  { s with rx := { s.rx with cmd := b, xor := b, phase := .len } }

/-- LEN (40 R129). -/
def lenByte (b : Byte) (s : State) : State :=
  { s with rx := { s.rx with
      len := b
      xor := s.rx.xor ^^^ b
      cnt := 0
      overLen := decide (s.params.maxData < b.toNat)
      phase := if b = 0 then .csum else .data } }

/-- DATA (40 R130). -/
def dataByte (b : Byte) (s : State) : State :=
  { s with rx := { s.rx with
      buf := if s.rx.cnt.toNat < s.params.maxData then s.rx.buf.write s.rx.cnt.toNat b else s.rx.buf
      xor := s.rx.xor ^^^ b
      cnt := s.rx.cnt + 1
      phase := if s.rx.cnt + 1 = s.rx.len then .csum else .data } }

/-- A valid frame: run its instruction (44 R200). A payload longer than `rxbuf` is a fault (log 16). -/
def dispatch (s : State) : Host.Outcome State Fault Refusal :=
  if s.rx.len.toNat ≤ s.params.maxData then exec (fetchInstr s) s
  else .fault (.bufferBounds s.rx.len.toNat s.params.maxData)

/-- CSUM, frame completion (40 R131): the verdict, then dispatch or acknowledge-invalid (41 R151), then `Status`. -/
def csumByte (b : Byte) (s : State) : Host.Outcome State Fault Refusal :=
  let t := latchVerdict b s
  andThen
    (if t.flags.valid then dispatch t else exec .txNak (raise (invalidCondition b t) t))
    reportStatus

/-- One received byte, by phase (00 R18). -/
def receiveByte (b : Byte) (s : State) : Host.Outcome State Fault Refusal :=
  match s.rx.phase with
  | .hunt => .next (huntByte b s)
  | .pfx1 => .next (pfx1Byte b s)
  | .pfx2 => .next (pfx2Byte b s)
  | .cmd => .next (cmdByte b s)
  | .len => .next (lenByte b s)
  | .data => .next (dataByte b s)
  | .csum => csumByte b s

/-- The start-up step (70 R253). -/
def startUp (s : State) : State := registerSentinels (debugTexts s)

/-- One input: a byte, or `reset` (70 R250). -/
def takeInput (i : Input) (s : State) : Host.Outcome State Fault Refusal :=
  match i with
  | .byte b => receiveByte b s
  | .reset => .next (assertReset s)

/-- A latched frame of length 0 whose command byte is `cmd`, with its checksum byte next (log 8). -/
def loadFrame (cmd : Byte) (s : State) : State :=
  { s with
    startPending := false
    rx := { s.rx with phase := .csum, node := s.params.nodeIdRx, cmd := cmd, len := 0, cnt := 0, xor := cmd, overLen := false }
    input := .byte (checksum cmd 0 []) :: s.input }

end Sys2Proof.Machine
end

