-- ==== Sys2Proof/Machine/Step.lean ====
section
/-! DEFINITION. One step of the machine, and where an instruction to be run next is placed. -/

namespace Sys2Proof.Machine

/-- One step: the start-up registration if it is due (70 R253), else the next input (00 R18, 70 R250), else nothing
(93 U3, 60 R238). -/
def step (s : State) : Host.Outcome State Fault Refusal :=
  if s.startPending then .next (startUp s)
  else
    match s.input with
    | [] => .next s
    | i :: rest => takeInput i (s.taking rest)

/-- The state in which the very next step completes a frame that holds the table's word (log 8, 9). -/
def State.withFetchWord (s : State) (nbits w : Nat) : State :=
  loadFrame (tableCommand nbits w) s

end Sys2Proof.Machine
end

