-- ==== Sys2Proof/Safety.lean ====
section
/-! DEFINITION. The terms in which claims speak of a run: what a payload holds, what a step put out, which frame it
completed, and the invariant of the machine between steps. -/

namespace Sys2Proof.Safety

open Sys2Proof.Machine

/-! ### What a payload holds (42 R175) -/

/-- A group of a payload (30 R92). -/
structure Group where
  addr : Addr
  v0   : Byte
  v1   : Byte
  deriving DecidableEq, Repr

/-- A continuation group has the sentinel address (30 R97). -/
def Group.isContinuation (g : Group) : Bool := decide (g.addr = Config.sentinelAddr)

/-- The complete groups of a payload, in order; a trailing partial group is none (42 R171). -/
def groupsOf : List Byte → List Group
  | hi :: lo :: v0 :: v1 :: rest => { addr := addrOfBytes hi lo, v0 := v0, v1 := v1 } :: groupsOf rest
  | _ => []

/-- A Decoded Element; its size is the number of its bytes (20 R64). -/
structure Element where
  addr  : Addr
  bytes : List Byte
  deriving DecidableEq, Repr

/-- The value bytes of groups, in wire order (20 R70). -/
def valueBytes (gs : List Group) : List Byte := gs.flatMap fun g => [g.v0, g.v1]

/-- The element that a real-address group starts: its own value bytes and those of the continuation groups directly
behind it, as many as the value buffer of `m` bytes takes (42 R175 d). -/
def elementAt (m : Nat) (g : Group) (behind : List Group) : Element :=
  { addr := g.addr, bytes := (valueBytes (g :: behind.takeWhile Group.isContinuation)).take (2 * (m / 2)) }

/-- The elements of a run of groups: one per real-address group, in order (42 R175 c, e). -/
def elementsOf (m : Nat) : List Group → List Element
  | [] => []
  | g :: gs => if g.isContinuation then elementsOf m gs else elementAt m g gs :: elementsOf m gs

/-- The events of one emitted element: the store write, then the forward call if the hook is connected (42 R173). -/
def elementEvents (p : Params) (e : Element) : List Event :=
  if p.forwardHook then [.set e.addr e.bytes e.bytes.length, .fwdV e.addr e.bytes e.bytes.length]
  else [.set e.addr e.bytes e.bytes.length]

/-- The events of a decode (42 R175). -/
def decodeEvents (p : Params) (payload : List Byte) : List Event :=
  (elementsOf p.maxValueSize (groupsOf payload)).flatMap (elementEvents p)

/-! ### What a request sends (43 R194) -/

/-- The bytes of a request frame with command `cmd` and data `data` (30 R101). -/
def requestFrame (p : Params) (cmd : Byte) (data : List Byte) : List Byte :=
  encodeFrame p p.nodeIdTx cmd data

/-- The events of sending a request frame: the forward call if the hook is connected, then the reply (43 R194). -/
def requestEvents (p : Params) (bytes : List Byte) : List Event :=
  if p.forwardHook then [.fwdF bytes, .tx bytes] else [.tx bytes]

/-! ### What a step does -/

/-- The reply of an event, if it is one (00 R16). -/
def reply? : Event → Option (List Byte)
  | .tx bytes => some bytes
  | _ => none

/-- The replies among events. -/
def repliesOf (evs : List Event) : List (List Byte) := evs.filterMap reply?

/-- The status report of an event, if it is one. -/
def status? : Event → Option (Bool × Bool × Cond)
  | .status v h c => some (v, h, c)
  | _ => none

/-- The kinds that events ask `StoreGetExpired` for. -/
def expiredKind? : Event → Option StoreKind
  | .getExp k _ => some k
  | _ => none

/-- Does an event write the Value Store? -/
def isSet : Event → Bool
  | .set _ _ _ => true
  | _ => false

/-- Is an event one of the forward hook's? -/
def isForward : Event → Bool
  | .fwdV _ _ _ => true
  | .fwdF _ => true
  | _ => false

/-- The next step reads byte `b` from the front of the input and leaves `rest` (00 R18). -/
abbrev Reads (s : State) (b : Byte) (rest : List Input) : Prop :=
  s.startPending = false ∧ s.input = .byte b :: rest

/-- The checksum byte that the next step reads, if it completes a frame (40 R131). -/
def completing (s : State) : Option Byte :=
  match s.startPending, s.rx.phase, s.input with
  | false, .csum, .byte b :: _ => some b
  | _, _, _ => none

/-- The class of the valid frame that the next step completes, if it does (44 R200). -/
def completingValid (s : State) : Option CommandClass :=
  match completing s with
  | some b => if verdict b s then some (classify s.params s.rx.cmd) else none
  | none => none

/-- The four commands that count as handled (44 R209). -/
def CommandHandled : CommandClass → Bool
  | .datablock => true
  | .readdata => true
  | .readreq => true
  | .writereq => true
  | .ack => false
  | .nak => false
  | .unknown => false

/-- The Value Store keeps its contract for the write request it may be asked for (93 U12): the element it answers holds at
least as many bytes as the size it registers. -/
abbrev StoreContract (s : State) : Prop :=
  ∀ index element, acquired .readWrite s = .entry index element →
    sizeAnswer index (acquire .readWrite s) ≤ element.value.length

/-! ### The invariant -/

/-- What every event put out looks like: a set or forwarded element has a real address and a size that fits (42 R175 b),
a reply is a control byte or a request frame that decodes (41 R155, 43 R191), a status report is one of 60 R220's rows. -/
def EventOk (p : Params) : Event → Prop
  | .tx bytes => bytes = [Config.ackByte] ∨ bytes = [Config.nakByte] ∨ ∃ i, decodeOutbound p bytes = .ok i
  | .getExp _ _ => True
  | .getElem _ _ => True
  | .getSize _ _ => True
  | .set a bytes size =>
      a ≠ Config.sentinelAddr ∧ bytes.length = size ∧ size % 2 = 0 ∧ 2 ≤ size ∧ size ≤ p.maxValueSize
  | .setErr type value => (type, value) ∈ p.errorSentinels
  | .fwdV a bytes size =>
      a ≠ Config.sentinelAddr ∧ bytes.length = size ∧ size % 2 = 0 ∧ 2 ≤ size ∧ size ≤ p.maxValueSize
  | .fwdF bytes => ∃ i, decodeOutbound p bytes = .ok i
  | .status valid handled cond =>
      match valid, handled with
      | false, false => cond = .checksum ∨ cond = .overlength
      | true, false => cond = .unknownCommand
      | true, true => cond = .none ∨ cond = .noPending ∨ cond = .missingElement ∨ cond = .reqTooLong
      | false, true => False

/-- A buffer is canonical and has no index at or past `size`. -/
structure BufferOk (size : Nat) (m : Memory) : Prop where
  canonical : m.wf
  bounded   : ∀ c ∈ m, c.1 < size

/-- The frame registers once the length byte is in: the over-length mark, and the running checksum of what has been
received (10 R26, R27). -/
structure LatchOk (s : State) : Prop where
  overLen : s.rx.overLen = decide (s.params.maxData < s.rx.len.toNat)
  xor     : s.rx.overLen = false → s.rx.xor = checksum s.rx.cmd s.rx.len (s.rx.buf.readN 0 s.rx.cnt.toNat)

/-- What the frame registers hold, by phase (10 R22, R25 to R27, R32). -/
def AssemblerOk (s : State) : Prop :=
  match s.rx.phase with
  | .hunt => True
  | .pfx1 => s.rx.node = s.params.nodeIdRx
  | .pfx2 => s.rx.node = s.params.nodeIdRx
  | .cmd => s.rx.node = s.params.nodeIdRx
  | .len => s.rx.node = s.params.nodeIdRx ∧ s.rx.xor = s.rx.cmd
  | .data => s.rx.node = s.params.nodeIdRx ∧ s.rx.cnt.toNat < s.rx.len.toNat ∧ LatchOk s
  | .csum => s.rx.node = s.params.nodeIdRx ∧ s.rx.cnt = s.rx.len ∧ LatchOk s

/-- The invariant of the machine between steps. -/
structure Inv (s : State) : Prop where
  paramsOk  : s.params.Ok
  rxBuf     : BufferOk s.params.maxData s.rx.buf
  txBuf     : BufferOk s.params.maxData s.tx.buf
  curVal    : BufferOk s.params.maxValueSize s.dec.val
  idle      : s.dec.size = 0 ∧ s.dec.pos % 4 = 0 ∧ s.dec.pos ≤ 252
  assembler : AssemblerOk s
  events    : ∀ e ∈ s.trace, EventOk s.params e

/-! ### What may matter (10 R39) -/

/-- The two states agree on everything outside the block's own registers. -/
structure SameSurroundings (s t : State) : Prop where
  params       : s.params = t.params
  startPending : s.startPending = t.startPending
  input        : s.input = t.input
  store        : s.store = t.store
  trace        : s.trace = t.trace
  dbg          : s.dbg = t.dbg

/-- The received bytes that count in the current frame agree: those below `n` that `rxbuf` holds. -/
abbrev SameBytes (s t : State) (n : Nat) : Prop :=
  ∀ i, i < n → i < s.params.maxData → s.rx.buf.read i = t.rx.buf.read i

/-- Command and running checksum agree. -/
abbrev SameHead (s t : State) : Prop := s.rx.cmd = t.rx.cmd ∧ s.rx.xor = t.rx.xor

/-- Length, count and over-length mark agree. -/
abbrev SameLength (s t : State) : Prop :=
  s.rx.len = t.rx.len ∧ s.rx.cnt = t.rx.cnt ∧ s.rx.overLen = t.rx.overLen

/-- The frame registers that are live in the phase agree: in HUNT, only the phase (10 R39). -/
def SameLive (s t : State) : Prop :=
  s.rx.phase = t.rx.phase ∧
    match s.rx.phase with
    | .hunt => True
    | .pfx1 => True
    | .pfx2 => True
    | .cmd => True
    | .len => SameHead s t
    | .data => SameHead s t ∧ SameLength s t ∧ SameBytes s t s.rx.cnt.toNat
    | .csum => SameHead s t ∧ SameLength s t ∧ SameBytes s t s.rx.len.toNat

/-- All three buffers are in canonical form. -/
def Canonical (s : State) : Prop :=
  s.rx.buf.wf ∧ s.dec.val.wf ∧ s.tx.buf.wf

/-- Two states that no run tells apart: same surroundings, same live registers, buffers in canonical form (10 R39). -/
def Alike (s t : State) : Prop :=
  SameSurroundings s t ∧ SameLive s t ∧ Canonical s ∧ Canonical t

/-- Two outcomes of the same kind whose next states are related. -/
def RelOutcome (R : State → State → Prop) : Host.Outcome State Fault Refusal → Host.Outcome State Fault Refusal → Prop
  | .next s, .next t => R s t
  | .fault a, .fault b => a = b
  | .refused a, .refused b => a = b
  | _, _ => False

/-- `k` steps, stopping at the first fault or refusal. -/
def steps : Nat → State → Host.Outcome State Fault Refusal
  | 0, s => .next s
  | k + 1, s =>
    match step s with
    | .next t => steps k t
    | .fault r => .fault r
    | .refused r => .refused r

/-- The state with both hooks taken off. -/
def withoutHooks (s : State) : State :=
  { s with params := { s.params with forwardHook := false, debugHook := false } }

end Sys2Proof.Safety
end

