-- ==== Sys2Proof/Certificates/Slice0/Obligations.lean ====
section
/-! DEFINITION. The statements for the provers. Each docstring names the rule it formalises; "the spec's own" marks what the
spec itself decides or derives. -/

open Sys2Proof Sys2Proof.Machine Sys2Proof.Safety

/-! ### The pure codec (40 R120 to R124, 30 R93 to R98) -/

/-- 30 R93: each of the six codes has its class, every other byte is UNKNOWN, and 250 byte values are. -/
def Obligations.ClassifyMapsEachCode : Prop :=
  ∀ p : Params, p.Ok →
    classify p p.cmdDatablock = .datablock ∧ classify p p.cmdReaddata = .readdata ∧
    classify p p.cmdReadreq = .readreq ∧ classify p p.cmdWritereq = .writereq ∧
    classify p 0x06 = .ack ∧ classify p 0x15 = .nak ∧
    (∀ c : Byte, classify p c = .unknown ↔ c ∉ p.commandCodes) ∧
    (Finset.univ.filter fun n : Fin 256 => classify p (BitVec.ofFin n) = .unknown).card = 250

/-- 30 R97: a group address is high byte first, and the sentinel iff both bytes are FF. 30 R98: a request identifier is sent
low byte first. -/
def Obligations.FieldByteOrders : Prop :=
  (∀ hi lo : Byte, (addrOfBytes hi lo).toNat = hi.toNat * 256 + lo.toNat ∧
    (addrOfBytes hi lo = Config.sentinelAddr ↔ hi = 0xFF ∧ lo = 0xFF)) ∧
  ∀ (ident : Addr) (value : List Byte), ∃ d0 d1 : Byte,
    requestData ident value = d0 :: d1 :: value ∧ d0.toNat = ident.toNat % 256 ∧ d1.toNat = ident.toNat / 256

/-- 40 R120: the running exclusive-or starts at 00 and takes one byte more each time; a frame's checksum covers command, length and
data, and with no data it is the command byte. -/
def Obligations.ChecksumIsRunningXor : Prop :=
  xor8 [] = 0x00 ∧ (∀ (bytes : List Byte) (b : Byte), xor8 (bytes ++ [b]) = xor8 bytes ^^^ b) ∧
  (∀ (cmd len : Byte) (data : List Byte), checksum cmd len data = xor8 ([cmd, len] ++ data)) ∧
  (∀ cmd : Byte, checksum cmd 0x00 [] = cmd) ∧
  checksum 0x68 0x08 [0x00, 0x10, 0xAA, 0xBB, 0xFF, 0xFF, 0xCC, 0xDD] = 0x70

/-- 40 R121, the spec's own inferences (a) to (e) about the checksum's arithmetic, and that order does not matter. -/
def Obligations.ChecksumArithmeticLaws : Prop :=
  (∀ as bs : List Byte, as.Perm bs → xor8 as = xor8 bs) ∧
  (∀ (bs : List Byte) (i k : Nat), i < bs.length → k < 8 →
    xor8 (bs.set i (bs.getD i 0 ^^^ BitVec.twoPow 8 k)) ≠ xor8 bs) ∧
  (∀ (bs : List Byte) (i j : Nat) (x : Byte), i < bs.length → j < bs.length → i ≠ j →
    xor8 ((bs.set i (bs.getD i 0 ^^^ x)).set j (bs.getD j 0 ^^^ x)) = xor8 bs) ∧
  (∀ (bs : List Byte) (i j : Nat), i < bs.length → j < bs.length →
    xor8 ((bs.set i (bs.getD j 0)).set j (bs.getD i 0)) = xor8 bs) ∧
  (∀ (cmd len x : Byte) (data : List Byte),
    checksum cmd (len + 2) (data ++ [x, x]) = checksum cmd len data ^^^ (len ^^^ (len + 2))) ∧
  (∀ (n p q n' p' q' : Byte) (rest : List Byte),
    (∃ f, decodeFrame (n :: p :: q :: rest) = .ok f) ↔ ∃ f, decodeFrame (n' :: p' :: q' :: rest) = .ok f)

/-- 40 R123: `decode` of a laid-out frame is the frame if the checksum matches and ChecksumError otherwise; outside its
precondition it is rejected by name (the spec's own, D19). -/
def Obligations.DecodeIsGatedByChecksum : Prop :=
  (∀ (node p1 p2 cmd len c : Byte) (data : List Byte), data.length = len.toNat →
    decodeFrame ([node, p1, p2, cmd, len] ++ data ++ [c]) =
      if checksum cmd len data = c then
        .ok { node := node, command := cmd, length := len, data := data, checksum := c }
      else .error .checksumError) ∧
  ∀ bytes : List Byte, (bytes.length < 6 ∨ bytes.length ≠ 6 + (bytes.getD 4 0).toNat) →
    decodeFrame bytes = .error .tooShort ∨ decodeFrame bytes = .error .lengthMismatch

/-- 40 R123, the round trip of 95 S7: encode then decode gives the fields back. -/
def Obligations.EncodeThenDecodeKeepsFields : Prop :=
  ∀ (p : Params) (node cmd : Byte) (data : List Byte), p.Ok → data.length ≤ p.maxData →
    ∃ f, decodeFrame (encodeFrame p node cmd data) = .ok f ∧ f.node = node ∧ f.command = cmd ∧
      f.length.toNat = data.length ∧ f.data = data

/-- 40 R124: one flipped bit in data or checksum, and (the spec's own inference) in the command byte, is a ChecksumError. -/
def Obligations.SingleBitErrorsAreCaught : Prop :=
  ∀ (bytes : List Byte) (f : Frame) (i k : Nat), decodeFrame bytes = .ok f → k < 8 →
    (i = 3 ∨ 5 ≤ i ∧ i ≤ 5 + f.length.toNat) →
    decodeFrame (bytes.set i (bytes.getD i 0 ^^^ BitVec.twoPow 8 k)) = .error .checksumError

/-- Decode and encode agree: every well-formed instruction, inbound or outbound, is read back from its bytes. -/
def Obligations.EveryInstructionDecodesFromItsBytes : Prop :=
  ∀ (p : Params) (i : Instr), p.Ok → wellFormed p i = true → decodeMessage p i.direction (encode p i) = .ok i

/-- 30 R94, R95 (lengths, identifier low byte first, value bytes verbatim) in the wire layout of 30 R90, R101 with the length byte
and checksum of 40 R122. That the first three bytes are NODE_ID_TX and the receive direction's prefix bytes is the spec's own, D5. -/
def Obligations.RequestFramesAreLaidOut : Prop :=
  ∀ (p : Params) (ident : Addr) (value : List Byte), 2 + value.length ≤ 255 → ∃ lo hi len : Byte,
    lo.toNat = ident.toNat % 256 ∧ hi.toNat = ident.toNat / 256 ∧ len.toNat = 2 + value.length ∧
    encode p (.txReadreq ident) =
      [p.nodeIdTx, p.prefix1, p.prefix2, p.cmdReadreq, 2, lo, hi, p.cmdReadreq ^^^ 2 ^^^ lo ^^^ hi] ∧
    encode p (.txWritereq ident value) =
      [p.nodeIdTx, p.prefix1, p.prefix2, p.cmdWritereq, len, lo, hi] ++ value ++
        [p.cmdWritereq ^^^ len ^^^ lo ^^^ hi ^^^ xor8 value]

/-- Words written out from 30 R90, R91, R101 with the bytes of `P_ref` (log 1): one of each family. -/
def Obligations.WrittenWordsDecode : Prop :=
  decodeInbound Params.ref [0x5C, 0x00, 0x20, 0x68, 0x04, 0x00, 0x10, 0xAA, 0xBB, 0x6D] =
    .ok (.datablock [0x00, 0x10, 0xAA, 0xBB]) ∧
  decodeInbound Params.ref [0x5C, 0x00, 0x20, 0x69, 0x00, 0x69] = .ok (.readreq []) ∧
  decodeInbound Params.ref [0x5C, 0x00, 0x20, 0x6D, 0x03, 0x01, 0x02, 0x03, 0x6E] =
    .ok (.unknown 0x6D [0x01, 0x02, 0x03]) ∧
  decodeOutbound Params.ref [0x15] = .ok .txNak ∧
  decodeOutbound Params.ref [0xC0, 0x00, 0x20, 0x69, 0x02, 0x02, 0x69, 0x00] = .ok (.txReadreq 0x6902)

/-! ### The receive assembler (40 R125 to R133) -/

/-- 40 R125 to R127 (the spec's own, D6, D7): HUNT takes the marker and drops every other byte; a prefix byte goes on, or on a
mismatch is looked at again as in HUNT. Nothing else changes. -/
def Obligations.SynchronisationSteps : Prop :=
  ∀ (s : State) (b : Byte) (rest : List Input), Reads s b rest →
    let u := s.taking rest
    let again : State :=
      if b = s.params.nodeIdRx then { u with rx := { s.rx with node := b, phase := .pfx1 } }
      else { u with rx := { s.rx with phase := .hunt } }
    (s.rx.phase = .hunt → step s = .next again) ∧
    (s.rx.phase = .pfx1 → step s =
      if s.params.prefixCheck = true ∧ b ≠ s.params.prefix1 then .next again
      else .next { u with rx := { s.rx with phase := .pfx2 } }) ∧
    (s.rx.phase = .pfx2 → step s =
      if s.params.prefixCheck = true ∧ b ≠ s.params.prefix2 then .next again
      else .next { u with rx := { s.rx with phase := .cmd } })

/-- 40 R128: the command byte is taken as it is and starts the running checksum. -/
def Obligations.CommandByteStep : Prop :=
  ∀ (s : State) (b : Byte) (rest : List Input), Reads s b rest → s.rx.phase = .cmd →
    step s = .next { s.taking rest with rx := { s.rx with cmd := b, xor := b, phase := .len } }

/-- 40 R129, R130 (the spec's own, D8): the length byte, and a data byte with its store into `rxbuf`; every other byte of
`rxbuf` reads as before. -/
def Obligations.LengthAndDataSteps : Prop :=
  ∀ (s : State) (b : Byte) (rest : List Input), Reads s b rest → s.rx.buf.wf →
    (s.rx.phase = .len → step s = .next { s.taking rest with rx := { s.rx with
        len := b, xor := s.rx.xor ^^^ b, cnt := 0, overLen := decide (b.toNat > s.params.maxData)
        phase := if b = 0 then .csum else .data } }) ∧
    (s.rx.phase = .data → ∃ buf : Memory,
      step s = .next { s.taking rest with rx := { s.rx with
        buf := buf, xor := s.rx.xor ^^^ b, cnt := s.rx.cnt + 1
        phase := if s.rx.cnt + 1 = s.rx.len then .csum else .data } } ∧ buf.wf ∧
      ∀ a, buf.read a =
        if a = s.rx.cnt.toNat ∧ s.rx.cnt.toNat < s.params.maxData then b else s.rx.buf.read a)

/-- 40 R131, 44 R200: a step runs the decoded instruction. Where the latched frame with its checksum byte decodes to `i` and
fits the buffer, the step is `exec i` from the state with the verdict latched, then the status report. -/
def Obligations.StepRunsDecodedInstruction : Prop :=
  ∀ (s : State) (b : Byte) (rest : List Input) (i : Instr), Inv s → Reads s b rest → s.rx.phase = .csum →
    s.rx.overLen = false → decodeInbound s.params (latchedFrame s b) = .ok i →
    step s = andThen
      (exec i { s.taking rest with
        rx := { s.rx with phase := .hunt }, flags := { valid := true, handled := false, cond := .none } })
      reportStatus

/-- 41 R151: an invalid frame gets NAK, first and only output before Status; no dispatch, no decode, no store call, no forward
call; its command byte has no influence; not handled. The spec's own: the return to HUNT (40 R131, D6), that an over-length frame
is invalid with X_OVERLENGTH (D8), and the Status event with its codes (44 R213, D11). Nothing else changes. -/
def Obligations.InvalidFrameGetsNakOnly : Prop :=
  ∀ (s : State) (b : Byte) (rest : List Input), Reads s b rest → s.rx.phase = .csum → verdict b s = false →
    ∃ c : Cond, (c = .checksum ∨ c = .overlength) ∧ step s = .next { s.taking rest with
      rx := { s.rx with phase := .hunt }
      flags := { valid := false, handled := false, cond := c }
      trace := s.trace ++ [.tx [0x15], .status false false c] }

/-- 41 R157, the spec's own inference: a step that completes no frame and is no start-up puts out nothing and calls nothing. -/
def Obligations.IncompleteBytesAreSilent : Prop :=
  ∀ s t : State, step s = .next t → completing s = none → s.startPending = false →
    t.trace = s.trace ∧ t.store = s.store

/-- 40 R132, the spec's own: the assembler agrees with the pure decode. The bytes of a laid-out frame but for its last bring
HUNT to CSUM without an event; if the frame is not over-length, the verdict on its last byte is decode's, and the frame
registers hold decode's fields. -/
def Obligations.AssemblerAgreesWithDecode : Prop :=
  ∀ (s : State) (p1 p2 cmd len c : Byte) (data : List Byte) (rest : List Input),
    s.params.Ok → s.rx.buf.wf → s.startPending = false → s.rx.phase = .hunt → data.length = len.toNat →
    (s.params.prefixCheck = true → p1 = s.params.prefix1 ∧ p2 = s.params.prefix2) →
    s.input = ([s.params.nodeIdRx, p1, p2, cmd, len] ++ data).map Input.byte ++ .byte c :: rest →
    ∃ t : State, steps (5 + data.length) s = .next t ∧
      t.rx.phase = .csum ∧ t.input = .byte c :: rest ∧ t.trace = s.trace ∧ t.store = s.store ∧
      t.rx.overLen = decide (s.params.maxData < data.length) ∧
      (t.rx.overLen = false →
        (verdict c t = true ↔ ∃ f, decodeFrame ([s.params.nodeIdRx, p1, p2, cmd, len] ++ data ++ [c]) = .ok f) ∧
        ∀ f, decodeFrame ([s.params.nodeIdRx, p1, p2, cmd, len] ++ data ++ [c]) = .ok f →
          t.rx.node = f.node ∧ t.rx.cmd = f.command ∧ t.rx.len = f.length ∧ rxPayload t = f.data)

/-- From bytes on the wire to the instruction's effect: from HUNT, the bytes of a well-formed inbound instruction run it, from
a state that differs from the start only in the frame registers, the flags, the input read and the debug port. -/
def Obligations.WireFrameRunsItsInstruction : Prop :=
  ∀ (s : State) (i : Instr) (rest : List Input),
    s.params.Ok → s.rx.buf.wf → s.startPending = false → s.rx.phase = .hunt →
    i.direction = .inbound → wellFormed s.params i = true →
    s.input = (encode s.params i).map Input.byte ++ rest →
    ∃ u : State, steps (encode s.params i).length s = andThen (exec i u) reportStatus ∧
      u = { s with rx := u.rx, flags := { valid := true, handled := false, cond := .none }, input := rest, dbg := u.dbg } ∧
      u.rx.phase = .hunt

/-! ### Replies and reports of a completed frame (41 R155, 44 R213) -/

/-- 41 R155, the spec's own inference and its chief safety property: a step puts out exactly one reply if it completes a frame
and none otherwise; the reply to an invalid frame is NAK, that to a valid one is ACK or a request frame that decodes. -/
def Obligations.OneReplyPerCompletedFrame : Prop :=
  ∀ s t : State, Inv s → step s = .next t → ∃ evs, t.trace = s.trace ++ evs ∧
    match completing s with
    | none => repliesOf evs = []
    | some b => ∃ bytes, repliesOf evs = [bytes] ∧
        if verdict b s then bytes = [0x06] ∨ ∃ f, decodeFrame bytes = .ok f ∧ f.node = s.params.nodeIdTx
        else bytes = [0x15]

/-- 44 R213 (the spec's own, D11), 40 R131: a completed frame ends in HUNT with exactly one status report, last, that carries the flags. -/
def Obligations.StatusIsLastAndOnce : Prop :=
  ∀ s t : State, step s = .next t → ∃ evs, t.trace = s.trace ++ evs ∧
    match completing s with
    | none => evs.filterMap status? = []
    | some _ => t.rx.phase = .hunt ∧ ∃ before,
        evs = before ++ [.status t.flags.valid t.flags.handled t.flags.cond] ∧ before.filterMap status? = []

/-- 44 R209, 60 R229 (the spec's own, D11): what the flags say after a completed frame, by verdict and command. -/
def Obligations.FlagsOfCompletedFrame : Prop :=
  ∀ (s t : State) (b : Byte), step s = .next t → completing s = some b →
    t.flags.valid = verdict b s ∧
    (t.flags.handled = true ↔ ∃ c, completingValid s = some c ∧ CommandHandled c = true) ∧
    (s.rx.overLen = true → t.flags.cond = .overlength) ∧
    (s.rx.overLen = false → s.rx.xor ≠ b → t.flags.cond = .checksum) ∧
    ∀ c, completingValid s = some c →
      ((c = .datablock ∨ c = .readdata) → t.flags.cond = .none) ∧
      (c = .readreq → t.flags.cond = .none ∨ t.flags.cond = .noPending ∨ t.flags.cond = .missingElement) ∧
      (c = .writereq → t.flags.cond = .none ∨ t.flags.cond = .noPending ∨ t.flags.cond = .missingElement ∨
        t.flags.cond = .reqTooLong) ∧
      (CommandHandled c = false → t.flags.cond = .unknownCommand)

/-- 20 R61: StoreGetExpired is called once per valid READREQ frame with Read and once per valid WRITEREQ frame with
ReadWrite, and at no other time. -/
def Obligations.ExpiredIsAskedOncePerRequestFrame : Prop :=
  ∀ s t : State, step s = .next t → ∃ evs, t.trace = s.trace ++ evs ∧
    evs.filterMap expiredKind? =
      match completingValid s with
      | some .readreq => [.read]
      | some .writereq => [.readWrite]
      | _ => []

/-- 41 R151, 20 R64: the Value Store is written only by a valid DATABLOCK or READDATA frame; an invalid frame never mutates it. -/
def Obligations.OnlyDataFramesWriteTheStore : Prop :=
  ∀ s t : State, step s = .next t → ∃ evs, t.trace = s.trace ++ evs ∧
    (completingValid s ≠ some .datablock → completingValid s ≠ some .readdata → evs.filter isSet = [])

/-- 10 R33, 20 R80: no step writes a parameter, and the trace only grows. -/
def Obligations.ParametersAreFixedAndTraceGrows : Prop :=
  ∀ s t : State, step s = .next t → t.params = s.params ∧ ∃ evs, t.trace = s.trace ++ evs

/-! ### The Data-Block Decoder (42) -/

/-- 44 R202, R203, 41 R152, 42 R165 to R174: DATABLOCK and READDATA complete; ACK comes first, then the events of the payload's
elements as 42 R175 describes them (the spec's own inferences), orphans left out (the spec's own, D10), each followed by its
forward call (the spec's own, D12); handled. Nothing else changes but the decoder's registers, and of `cur_val` no byte past
every accumulated size, that is, none but those stored. -/
def Obligations.DataFramesStoreTheirElements : Prop :=
  ∀ (s : State) (payload : List Byte), s.params.Ok → s.dec.val.wf →
    ∃ d : DecRegs,
      let t : State := { s with
        dec := d, flags := { s.flags with handled := true }
        trace := s.trace ++ .tx [0x06] :: decodeEvents s.params payload }
      exec (.datablock payload) s = .next t ∧ exec (.readdata payload) s = .next t ∧
      d.size = 0 ∧ d.pos = 4 * (payload.length / 4) ∧ d.val.wf ∧
      ∀ a, (∀ fuel, (groupLoop payload fuel (decodeStart (sendAck s))).dec.size ≤ a) →
        d.val.read a = s.dec.val.read a

/-- 41 R152: for a valid DATABLOCK or READDATA frame ACK is sent before any decoding, whatever the payload holds; then the decoder
runs on `rxbuf[0 .. rx_len)`. That ACK is the only reply is the spec's own inference (41 R155); that the report follows the decoder
and says valid, handled, X_NONE is the spec's own (44 R202, R213, D11). -/
def Obligations.DataFramesAreAcknowledgedFirst : Prop :=
  ∀ (s : State) (b : Byte) (rest : List Input), Inv s → Reads s b rest →
    (completingValid s = some .datablock ∨ completingValid s = some .readdata) →
    ∃ (t : State) (evs : List Event), step s = .next t ∧ t.trace = s.trace ++ .tx [0x06] :: evs ∧ repliesOf evs = [] ∧
      (decodeElements (rxPayload s) s).trace ++ [.status true true .none] = s.trace ++ evs

/-- 42 R170: the two value bytes are appended if there is room, `cur_size < MAX_VALUE_SIZE - 1`, and dropped without any effect
otherwise; with MAX_VALUE_SIZE = 4 there is room at 0 and 2, not at 4; a group with a real address always has room, after its flush. -/
def Obligations.ValueBytesAppendIfRoom : Prop :=
  ∀ (s : State) (v0 v1 : Byte), s.dec.val.wf →
    (s.dec.size < s.params.maxValueSize - 1 →
      (appendValue v0 v1 s).dec.size = s.dec.size + 2 ∧ curValue (appendValue v0 v1 s) = curValue s ++ [v0, v1] ∧
      ∀ a, a ≠ s.dec.size → a ≠ s.dec.size + 1 → (appendValue v0 v1 s).dec.val.read a = s.dec.val.read a) ∧
    (¬ s.dec.size < s.params.maxValueSize - 1 → appendValue v0 v1 s = s) ∧
    (s.params.maxValueSize = 4 → s.dec.size % 2 = 0 → s.dec.size ≤ 4 →
      (s.dec.size < s.params.maxValueSize - 1 ↔ s.dec.size = 0 ∨ s.dec.size = 2)) ∧
    (∀ a : Addr, a ≠ 0xFFFF → 2 ≤ s.params.maxValueSize →
      (takeAddress a (flushOnAddress a s)).dec.size < (takeAddress a (flushOnAddress a s)).params.maxValueSize - 1) ∧
    appendValue v0 v1 s = { s with dec := { s.dec with
      val := (appendValue v0 v1 s).dec.val, size := (appendValue v0 v1 s).dec.size } }

/-- 42 R175, the spec's own inferences: the accumulator stays even and within its buffer all along; every element stored has a
real address and 2 or 4 bytes; there is one per group with a real address, in order. -/
def Obligations.DecodedElementsAreWellFormed : Prop :=
  ∀ (s : State) (payload : List Byte), s.params.Ok → s.dec.val.wf →
    (∀ fuel, (groupLoop payload fuel (decodeStart s)).dec.size % 2 = 0 ∧
      (groupLoop payload fuel (decodeStart s)).dec.size ≤ s.params.maxValueSize) ∧
    ∃ evs, (decodeElements payload s).trace = s.trace ++ evs ∧
      (evs.filterMap fun e => match e with | .set a _ _ => some a | _ => none) =
        ((groupsOf payload).filter fun g => !g.isContinuation).map Group.addr ∧
      ∀ a bytes n, Event.set a bytes n ∈ evs →
        a ≠ 0xFFFF ∧ bytes.length = n ∧ (s.params.maxValueSize = 4 → n = 2 ∨ n = 4)

/-- 42 R174 (the spec's own, D10): orphan continuation groups in front of a payload show nowhere in the trace. -/
def Obligations.OrphanContinuationsAreIgnored : Prop :=
  ∀ (s t u : State) (v0 v1 : Byte) (payload : List Byte), s.params.Ok → s.dec.val.wf →
    exec (.datablock (0xFF :: 0xFF :: v0 :: v1 :: payload)) s = .next t → exec (.datablock payload) s = .next u →
    t.trace = u.trace ∧ t.flags = u.flags

/-- 42 R171, 20 R73: trailing bytes that make no group change nothing at all. -/
def Obligations.TrailingBytesAreIgnored : Prop :=
  ∀ (s : State) (payload : List Byte),
    exec (.datablock payload) s = exec (.datablock (payload.take (4 * (payload.length / 4)))) s

/-! ### Requests (43, 44 R204, R205) -/

/-- 44 R204 with 43 R186 to R188, R194: READREQ completes in every state, whatever its payload: an ACK with its condition if there
is no entry or no element, else the read request frame of the element's identifier. -/
def Obligations.ReadreqAnswersByStore : Prop :=
  ∀ (s : State) (payload : List Byte),
    let got := expiredAnswer .read s
    let s1 := callExpired .read s
    (got = none → exec (.readreq payload) s = .next { s1 with
      flags := { s.flags with handled := true, cond := .noPending }
      trace := s.trace ++ [.getExp .read none, .tx [0x06]] }) ∧
    ∀ index, got = some index →
      let s2 := callElement index s1
      (elementAnswer index s1 = none → exec (.readreq payload) s = .next { s2 with
        flags := { s.flags with handled := true, cond := .missingElement }
        trace := s.trace ++ [.getExp .read (some index), .getElem index none, .tx [0x06]] }) ∧
      ∀ e, elementAnswer index s1 = some e → s.tx.buf.wf → ∃ buf : Memory,
        exec (.readreq payload) s = .next { s2 with
          flags := { s.flags with handled := true }
          tx := { node := s.params.nodeIdTx, cmd := s.params.cmdReadreq, len := 2, buf := buf }
          trace := s.trace ++ [.getExp .read (some index), .getElem index (some e)] ++
            requestEvents s.params (requestFrame s.params s.params.cmdReadreq [identLow e.identifier, identHigh e.identifier]) } ∧
        buf.readN 0 2 = [identLow e.identifier, identHigh e.identifier] ∧ ∀ a, 2 ≤ a → buf.read a = s.tx.buf.read a

/-- 44 R205 with 43 R186, R187, R189, R190, R194: WRITEREQ completes wherever the store keeps its contract: an ACK with its condition
if there is no entry, no element or no room, else the write request frame of the element. -/
def Obligations.WritereqAnswersByStore : Prop :=
  ∀ (s : State) (payload : List Byte),
    let got := expiredAnswer .readWrite s
    let s1 := callExpired .readWrite s
    (got = none → exec (.writereq payload) s = .next { s1 with
      flags := { s.flags with handled := true, cond := .noPending }
      trace := s.trace ++ [.getExp .readWrite none, .tx [0x06]] }) ∧
    ∀ index, got = some index →
      let s2 := callElement index s1
      (elementAnswer index s1 = none → exec (.writereq payload) s = .next { s2 with
        flags := { s.flags with handled := true, cond := .missingElement }
        trace := s.trace ++ [.getExp .readWrite (some index), .getElem index none, .tx [0x06]] }) ∧
      ∀ e, elementAnswer index s1 = some e →
        let size := sizeAnswer index s2
        let s3 := callSize index s2
        let asked := [Event.getExp .readWrite (some index), .getElem index (some e), .getSize index size]
        (s.params.maxData < 2 + size → exec (.writereq payload) s = .next { s3 with
          flags := { s.flags with handled := true, cond := .reqTooLong }
          trace := s.trace ++ asked ++ [.tx [0x06]] }) ∧
        (2 + size ≤ s.params.maxData → size ≤ e.value.length → s.params.maxData ≤ 255 → s.tx.buf.wf →
          ∃ buf : Memory,
          let data := [identLow e.identifier, identHigh e.identifier] ++ e.value.take size
          exec (.writereq payload) s = .next { s3 with
            flags := { s.flags with handled := true }
            tx := { node := s.params.nodeIdTx, cmd := s.params.cmdWritereq, len := BitVec.ofNat 8 (2 + size), buf := buf }
            trace := s.trace ++ asked ++ requestEvents s.params (requestFrame s.params s.params.cmdWritereq data) } ∧
          buf.readN 0 (2 + size) = data ∧ ∀ a, 2 + size ≤ a → buf.read a = s.tx.buf.read a)

/-- 93 U12, log 11: a store whose element holds fewer bytes than the size it registers, where the request would fit, is refused by name. -/
def Obligations.BrokenStoreContractIsRefused : Prop :=
  ∀ (s : State) (payload : List Byte) (index : Nat) (e : IoElement),
    acquired .readWrite s = .entry index e →
    2 + sizeAnswer index (acquire .readWrite s) ≤ s.params.maxData →
    e.value.length < sizeAnswer index (acquire .readWrite s) →
    exec (.writereq payload) s =
      .refused (.storeContract index (sizeAnswer index (acquire .readWrite s)) e.value.length)

/-- 43 R188, 30 R94 with 43 R194: TX_READREQ completes; the frame's bytes and the staging registers, written out. -/
def Obligations.ReadRequestMessageBytes : Prop :=
  ∀ (s : State) (ident : Addr), s.tx.buf.wf → ∃ (lo hi : Byte) (buf : Memory),
    lo.toNat = ident.toNat % 256 ∧ hi.toNat = ident.toNat / 256 ∧
    exec (.txReadreq ident) s = .next { s with
      tx := { node := s.params.nodeIdTx, cmd := s.params.cmdReadreq, len := 2, buf := buf }
      trace := s.trace ++ requestEvents s.params
        [s.params.nodeIdTx, s.params.prefix1, s.params.prefix2, s.params.cmdReadreq, 2, lo, hi,
          s.params.cmdReadreq ^^^ 2 ^^^ lo ^^^ hi] } ∧
    buf.readN 0 2 = [lo, hi] ∧ ∀ a, 2 ≤ a → buf.read a = s.tx.buf.read a

/-- 30 R95, 43 R189 with 43 R194: TX_WRITEREQ completes where it fits; the frame's bytes and the staging registers, written out. -/
def Obligations.WriteRequestMessageBytes : Prop :=
  ∀ (s : State) (ident : Addr) (value : List Byte), s.tx.buf.wf → s.params.maxData ≤ 255 →
    2 + value.length ≤ s.params.maxData → ∃ (lo hi len : Byte) (buf : Memory),
    lo.toNat = ident.toNat % 256 ∧ hi.toNat = ident.toNat / 256 ∧ len.toNat = 2 + value.length ∧
    exec (.txWritereq ident value) s = .next { s with
      tx := { node := s.params.nodeIdTx, cmd := s.params.cmdWritereq, len := len, buf := buf }
      trace := s.trace ++ requestEvents s.params
        ([s.params.nodeIdTx, s.params.prefix1, s.params.prefix2, s.params.cmdWritereq, len, lo, hi] ++ value ++
          [s.params.cmdWritereq ^^^ len ^^^ lo ^^^ hi ^^^ xor8 value]) } ∧
    buf.readN 0 (2 + value.length) = [lo, hi] ++ value ∧ ∀ a, 2 + value.length ≤ a → buf.read a = s.tx.buf.read a

/-- 43 R190 (the spec's own, D13; log 10): a write request that does not fit is not staged; the reply is a bare ACK. -/
def Obligations.TooLongRequestFallsBackToAck : Prop :=
  ∀ (s : State) (ident : Addr) (value : List Byte), s.params.maxData < 2 + value.length →
    exec (.txWritereq ident value) s = .next { s with
      flags := { s.flags with cond := .reqTooLong }, trace := s.trace ++ [.tx [0x06]] }

/-! ### Unhandled commands and control bytes (44 R206 to R208, 41 R150) -/

/-- 44 R206 to R208 (the spec's own, D4, D11, D21): ACK, NAK and UNKNOWN complete in every state with ACK, not handled,
X_UNKNOWN_COMMAND, and change nothing else. -/
def Obligations.UnhandledCommandsAreAcknowledged : Prop :=
  ∀ (s : State) (payload : List Byte) (command : Byte),
    let t : State := { s with
      flags := { s.flags with handled := false, cond := .unknownCommand }, trace := s.trace ++ [.tx [0x06]] }
    exec (.ack payload) s = .next t ∧ exec (.nak payload) s = .next t ∧ exec (.unknown command payload) s = .next t

/-- 41 R150: TX_ACK is one transmit of `06`, TX_NAK of `15`, and nothing else changes. -/
def Obligations.ControlBytesAreOneTransmit : Prop :=
  ∀ s : State, exec .txAck s = .next { s with trace := s.trace ++ [.tx [0x06]] } ∧
    exec .txNak s = .next { s with trace := s.trace ++ [.tx [0x15]] }

/-- 60 R220, R231 (the spec's own codes, D11): the code of each condition, and raising one writes `f_cond` and nothing else. -/
def Obligations.ConditionCodes : Prop :=
  (Cond.code .none = 0 ∧ Cond.code .checksum = 1 ∧ Cond.code .unknownCommand = 2 ∧ Cond.code .noPending = 3 ∧
    Cond.code .missingElement = 4 ∧ Cond.code .overlength = 5 ∧ Cond.code .reqTooLong = 6) ∧
  ∀ (c : Condition) (s : State), raise c s = { s with flags := { s.flags with cond := c.cond } }

/-! ### Reset, start-up, rest (70 R250 to R257) -/

/-- 70 R253 (the spec's own, D17): the start-up registration puts out one SETERR per entry, in list order, before any input
is taken, and changes nothing else. -/
def Obligations.StartUpRegistersSentinels : Prop :=
  ∀ s : State, s.startPending = true → step s = .next { debugTexts s with
    startPending := false
    trace := s.trace ++ s.params.errorSentinels.map fun entry => Event.setErr entry.1 entry.2 }

/-- 70 R250, R251, 10 R38 (the spec's own, D16): reset, whatever the phase, gives HUNT and the registration to come; no event, no
store call, the partial frame forgotten. -/
def Obligations.ResetInputGivesHunt : Prop :=
  ∀ (s : State) (rest : List Input), s.startPending = false → s.input = .reset :: rest →
    ∃ t : State, step s = .next t ∧ t.rx.phase = .hunt ∧ t.startPending = true ∧ t.input = rest ∧
      t.trace = s.trace ∧ t.store = s.store ∧ t.params = s.params

/-- 93 U3, 70 R257: with no input left the block stays as it is, in any phase. -/
def Obligations.NoInputChangesNothing : Prop :=
  ∀ s : State, s.startPending = false → s.input = [] → step s = .next s

/-! ### The machine between steps -/

/-- The invariant holds right after reset. It rests on the reset values of log 1 to 3 and 5. -/
def Obligations.ResetKeepsInvariant : Prop := Inv State.reset

/-- Every step keeps the invariant: parameters in range, buffers canonical and bounded (10 R28 to R30), the accumulator empty
between steps (42 R166), the frame registers as their phase says (10 R22, R25 to R27), every event put out well formed
(42 R175, 43 R191, 60 R220). -/
def Obligations.EveryStepKeepsInvariant : Prop :=
  ∀ s t : State, Inv s → step s = .next t → Inv t

/-- 00 R18, 60 R228: the machine never faults, and stops only where a store breaks its contract; with the contract kept every
step has a next state. -/
def Obligations.NothingStopsTheBlock : Prop :=
  ∀ s : State, Inv s →
    (∀ r, step s ≠ .fault r) ∧
    (∀ r, step s = .refused r → ∃ index size held, r = .storeContract index size held ∧ held < size) ∧
    (StoreContract s → ∃ t, step s = .next t)

/-- 10 R39, the spec's own inference: no rule reads an unspecified element. Two states with the same surroundings that agree on
the registers live in their phase take the same step, to states that again do; so what reset leaves open (log 2, 3, 4) never shows. -/
def Obligations.UnspecifiedRegistersNeverShow : Prop :=
  ∀ s t : State, Alike s t → RelOutcome Alike (step s) (step t)

/-- 10 R37, 44 R211, 93 U15: hooks have no effect but their own events. With both hooks taken off, a step does what it did,
less the forward events and the debug texts. -/
def Obligations.HooksHaveNoOtherEffect : Prop :=
  ∀ s t : State, step s = .next t → ∃ evs, t.trace = s.trace ++ evs ∧
    step (withoutHooks s) = .next { withoutHooks t with
      trace := s.trace ++ evs.filter (fun e => !isForward e), dbg := s.dbg }
end

