-- ==== Sys2Proof/Laws/Codec.lean ====
section
/-! SUPPORT. The pure codec: the checksum's arithmetic, and decode on the bytes of a laid-out frame. -/

namespace Sys2Proof

/-- The fold of the checksum may start anywhere. -/
theorem foldl_xor (acc : Byte) (bytes : List Byte) :
    bytes.foldl (fun acc b => acc ^^^ b) acc = acc ^^^ xor8 bytes := by
  induction bytes generalizing acc with
  | nil => simp [xor8]
  | cons b bs ih =>
    rw [List.foldl_cons, ih]
    show acc ^^^ b ^^^ xor8 bs = acc ^^^ bs.foldl (fun acc b => acc ^^^ b) (0 ^^^ b)
    rw [ih (0 ^^^ b)]
    simp [BitVec.xor_assoc]

@[simp] theorem xor8_nil : xor8 [] = 0 := rfl

@[simp] theorem xor8_cons (b : Byte) (bs : List Byte) : xor8 (b :: bs) = b ^^^ xor8 bs := by
  rw [xor8, List.foldl_cons, foldl_xor]
  simp

@[simp] theorem xor8_append (as bs : List Byte) : xor8 (as ++ bs) = xor8 as ^^^ xor8 bs := by
  rw [xor8, List.foldl_append, foldl_xor]; rfl

theorem xor_cancel (a x : Byte) : a ^^^ x ^^^ x = a := by
  rw [BitVec.xor_assoc, BitVec.xor_self, BitVec.xor_zero]

/-- Putting `x` at index `i` takes the old byte out of the checksum and `x` in. -/
theorem xor8_set (bs : List Byte) (i : Nat) (h : i < bs.length) (x : Byte) :
    xor8 (bs.set i x) = xor8 bs ^^^ bs.getD i 0 ^^^ x := by
  induction bs generalizing i with
  | nil => simp at h
  | cons b bs ih =>
    cases i with
    | zero =>
      simp only [List.set_cons_zero, xor8_cons, List.getD_cons_zero]
      rw [BitVec.xor_comm b (xor8 bs), xor_cancel, BitVec.xor_comm]
    | succ i =>
      simp only [List.set_cons_succ, xor8_cons, List.getD_cons_succ]
      rw [ih i (by simpa using h)]
      simp [BitVec.xor_assoc]

/-- The receive assembler's running checksum (10 R26): one more data byte. -/
theorem checksum_append (cmd len : Byte) (data : List Byte) (b : Byte) :
    checksum cmd len (data ++ [b]) = checksum cmd len data ^^^ b := by
  simp [checksum, BitVec.xor_assoc]

theorem checksum_nil (cmd len : Byte) : checksum cmd len [] = cmd ^^^ len := by
  simp [checksum]

/-- `decode` on a laid-out frame: the checksum decides (40 R123). -/
theorem decodeFrame_laid {node p1 p2 cmd len c : Byte} {data : List Byte} (h : data.length = len.toNat) :
    decodeFrame ([node, p1, p2, cmd, len] ++ data ++ [c]) =
      if checksum cmd len data = c then
        .ok { node := node, command := cmd, length := len, data := data, checksum := c }
      else .error .checksumError := by
  simp [decodeFrame, ← h]

/-- What a decoded byte sequence is laid out like (40 R123). -/
theorem decodeFrame_ok {bytes : List Byte} {f : Frame} (h : decodeFrame bytes = .ok f) :
    ∃ p1 p2, bytes = [f.node, p1, p2, f.command, f.length] ++ f.data ++ [f.checksum] ∧
      f.data.length = f.length.toNat ∧ checksum f.command f.length f.data = f.checksum := by
  match bytes, h with
  | node :: p1 :: p2 :: cmd :: len :: rest, h =>
    simp only [decodeFrame] at h
    split at h
    · cases h
    split at h
    · cases h
    split at h
    · rename_i h1 h2 hc
      cases h
      have hlen : rest.length = len.toNat + 1 := by simpa using h2
      refine ⟨p1, p2, ?_, by simp [hlen], hc⟩
      have : rest = rest.take len.toNat ++ [rest.getD len.toNat 0] := by
        rw [List.getD_eq_getElem _ _ (by omega)]
        rw [List.take_append_getElem]
        rw [← hlen, List.take_length]
      simpa using this
    · cases h

theorem toNat_ofNat_of_le {n : Nat} (h : n ≤ 255) : (BitVec.ofNat 8 n).toNat = n := by
  simp; omega

/-- `decode` of `encode` (40 R123). -/
theorem decodeFrame_encodeFrame (p : Params) (node cmd : Byte) {data : List Byte} (h : data.length ≤ 255) :
    decodeFrame (encodeFrame p node cmd data) =
      .ok { node := node, command := cmd, length := BitVec.ofNat 8 data.length, data := data,
            checksum := checksum cmd (BitVec.ofNat 8 data.length) data } := by
  rw [encodeFrame, decodeFrame_laid (toNat_ofNat_of_le h).symm, if_pos rfl]

@[simp] theorem length_encodeFrame (p : Params) (node cmd : Byte) (data : List Byte) :
    (encodeFrame p node cmd data).length = 6 + data.length := by
  simp [encodeFrame]; omega

@[simp] theorem length_requestData (ident : Addr) (value : List Byte) :
    (requestData ident value).length = 2 + value.length := by
  simp [requestData]; omega

theorem identOfBytes_split (ident : Addr) : identOfBytes (identLow ident) (identHigh ident) = ident := by
  simp only [identOfBytes, identLow, identHigh]
  ext i hi
  simp only [BitVec.getElem_append, BitVec.getElem_extractLsb']
  split
  · simp [BitVec.getLsbD_eq_getElem hi]
  · rw [show 8 + (i - 8) = i by omega, BitVec.getLsbD_eq_getElem hi]

end Sys2Proof
end

