-- ==== Sys2Proof/Laws/Memory.lean ====
section
/-! SUPPORT. Byte buffers: read after write, and that every operation keeps the canonical form and the bound. -/

namespace Sys2Proof.Machine.Memory

@[simp] theorem read_nil (a : Nat) : read [] a = unlistedByte := rfl

@[simp] theorem readN_zero (m : Memory) (a : Nat) : m.readN a 0 = [] := rfl

theorem readN_succ (m : Memory) (a n : Nat) : m.readN a (n + 1) = m.read a :: m.readN (a + 1) n := rfl

@[simp] theorem writeN_nil (m : Memory) (a : Nat) : m.writeN a [] = m := rfl

theorem writeN_cons (m : Memory) (a : Nat) (v : Byte) (vs : List Byte) :
    m.writeN a (v :: vs) = (m.write a v).writeN (a + 1) vs := rfl

theorem wf_nil : wf [] := ⟨List.Pairwise.nil, fun c hc => by cases hc⟩

theorem wf_tail {c : Host.Cell} {m : Memory} (h : wf (c :: m)) : wf m :=
  ⟨(List.pairwise_cons.mp h.1).2, fun d hd => h.2 d (List.mem_cons_of_mem _ hd)⟩

/-- Below its first index a canonical buffer lists nothing. -/
theorem read_of_lt {m : Memory} {a : Nat} (h : ∀ c ∈ m, a < c.1) : m.read a = unlistedByte := by
  induction m with
  | nil => rfl
  | cons c m ih =>
    obtain ⟨k, w⟩ := c
    have hk : a < k := h (k, w) (List.mem_cons_self ..)
    rw [read, if_neg (by omega)]
    exact ih fun c hc => h c (List.mem_cons_of_mem _ hc)

theorem read_consCell {m : Memory} {a : Nat} (v : Byte) (b : Nat) (h : ∀ c ∈ m, a < c.1) :
    (consCell a v m).read b = if b = a then v else m.read b := by
  unfold consCell
  split
  · rename_i hv
    split
    · rename_i hb; rw [hb, read_of_lt h, hv]
    · rfl
  · rw [read]; simp only [eq_comm]

theorem mem_consCell {m : Memory} {a : Nat} {v : Byte} {c : Host.Cell} (h : c ∈ consCell a v m) :
    c = (a, v) ∧ v ≠ unlistedByte ∨ c ∈ m := by
  unfold consCell at h
  split at h
  · exact .inr h
  · rename_i hv
    rcases List.mem_cons.mp h with h | h
    · exact .inl ⟨h, hv⟩
    · exact .inr h

theorem mem_write {m : Memory} {a : Nat} {v : Byte} {c : Host.Cell} (h : c ∈ m.write a v) :
    c = (a, v) ∧ v ≠ unlistedByte ∨ c ∈ m := by
  induction m with
  | nil => exact mem_consCell h
  | cons d m ih =>
    obtain ⟨k, w⟩ := d
    simp only [write] at h
    split at h
    · exact mem_consCell h
    · split at h
      · exact (mem_consCell h).imp id (List.mem_cons_of_mem _)
      · rcases List.mem_cons.mp h with h | h
        · exact .inr (h ▸ List.mem_cons_self ..)
        · exact (ih h).imp id (List.mem_cons_of_mem _)

theorem wf_consCell {m : Memory} {a : Nat} (v : Byte) (hm : m.wf) (h : ∀ c ∈ m, a < c.1) :
    (consCell a v m).wf := by
  unfold consCell
  split
  · exact hm
  · rename_i hv
    refine ⟨List.pairwise_cons.mpr ⟨h, hm.1⟩, fun c hc => ?_⟩
    rcases List.mem_cons.mp hc with rfl | hc
    · exact hv
    · exact hm.2 c hc

/-- A write keeps the canonical form. -/
theorem wf_write {m : Memory} (a : Nat) (v : Byte) (hm : m.wf) : (m.write a v).wf := by
  induction m with
  | nil => exact wf_consCell v wf_nil (by simp)
  | cons d m ih =>
    obtain ⟨k, w⟩ := d
    have hlt : ∀ c ∈ m, k < c.1 := (List.pairwise_cons.mp hm.1).1
    simp only [write]
    split
    · rename_i hak
      refine wf_consCell v hm fun c hc => ?_
      rcases List.mem_cons.mp hc with rfl | hc
      · exact hak
      · exact Nat.lt_trans hak (hlt c hc)
    · split
      · rename_i _ hak
        exact wf_consCell v (wf_tail hm) (hak ▸ hlt)
      · rename_i hak hne
        have ih := ih (wf_tail hm)
        refine ⟨List.pairwise_cons.mpr ⟨fun c hc => ?_, ih.1⟩, fun c hc => ?_⟩
        · rcases mem_write hc with ⟨rfl, _⟩ | hc
          · show k < a; omega
          · exact hlt c hc
        · rcases List.mem_cons.mp hc with rfl | hc
          · exact hm.2 (k, w) (List.mem_cons_self ..)
          · exact ih.2 c hc

/-- Read after write: the byte written where it was written, every other byte as before. -/
theorem read_write {m : Memory} (hm : m.wf) (a b : Nat) (v : Byte) :
    (m.write a v).read b = if b = a then v else m.read b := by
  induction m with
  | nil => exact read_consCell v b (by simp)
  | cons d m ih =>
    obtain ⟨k, w⟩ := d
    have hlt : ∀ c ∈ m, k < c.1 := (List.pairwise_cons.mp hm.1).1
    simp only [write]
    split
    · rename_i hak
      refine read_consCell v b fun c hc => ?_
      rcases List.mem_cons.mp hc with rfl | hc
      · exact hak
      · exact Nat.lt_trans hak (hlt c hc)
    · split
      · rename_i _ hak
        rw [read_consCell v b (hak ▸ hlt), read]
        split
        · rfl
        · rw [if_neg (by omega)]
      · rename_i hak hne
        simp only [read, ih (wf_tail hm)]
        split
        · rw [if_neg (by omega)]
        · rfl

/-- Every byte outside the bytes stored reads as before; a byte stored reads as stored. -/
theorem read_writeN {m : Memory} (hm : m.wf) (a : Nat) (vs : List Byte) (b : Nat) :
    (m.writeN a vs).read b = if a ≤ b ∧ b < a + vs.length then vs.getD (b - a) 0 else m.read b := by
  induction vs generalizing m a with
  | nil => rw [writeN_nil, if_neg (by simp only [List.length_nil]; omega)]
  | cons v vs ih =>
    rw [writeN_cons, ih (wf_write a v hm), read_write hm]
    simp only [List.length_cons]
    by_cases hb : b = a
    · subst hb; simp
    · by_cases hin : a ≤ b ∧ b < a + (vs.length + 1)
      · rw [if_pos (by omega), if_pos hin, show b - a = (b - (a + 1)) + 1 by omega, List.getD_cons_succ]
      · rw [if_neg (by omega), if_neg hb, if_neg hin]

theorem wf_writeN {m : Memory} (a : Nat) (vs : List Byte) (hm : m.wf) : (m.writeN a vs).wf := by
  induction vs generalizing m a with
  | nil => exact hm
  | cons v vs ih => exact ih (a + 1) (wf_write a v hm)

@[simp] theorem length_readN (m : Memory) (a n : Nat) : (m.readN a n).length = n := by
  induction n generalizing a with
  | zero => rfl
  | succ n ih => rw [readN_succ, List.length_cons, ih]

/-- Reading a run only looks at the bytes of the run. -/
theorem readN_congr {m m' : Memory} {a n : Nat} (h : ∀ i, a ≤ i → i < a + n → m.read i = m'.read i) :
    m.readN a n = m'.readN a n := by
  induction n generalizing a with
  | zero => rfl
  | succ n ih =>
    rw [readN_succ, readN_succ, h a (by omega) (by omega), ih fun i hi hi' => h i (by omega) (by omega)]

theorem readN_append (m : Memory) (a n k : Nat) : m.readN a (n + k) = m.readN a n ++ m.readN (a + n) k := by
  induction n generalizing a with
  | zero => simp
  | succ n ih =>
    rw [show n + 1 + k = (n + k) + 1 by omega, readN_succ, readN_succ, ih (a + 1), List.cons_append,
      show a + 1 + n = a + (n + 1) by omega]

/-- A run written in one piece reads back. -/
theorem readN_writeN {m : Memory} (hm : m.wf) (a : Nat) (vs : List Byte) :
    (m.writeN a vs).readN a vs.length = vs := by
  induction vs generalizing m a with
  | nil => rfl
  | cons v vs ih =>
    rw [List.length_cons, readN_succ, writeN_cons, ih (wf_write a v hm), read_writeN (wf_write a v hm),
      if_neg (by omega), read_write hm, if_pos rfl]

/-- A write at or past the end of a run does not show in it. -/
theorem readN_write_of_le {m : Memory} (hm : m.wf) {a n b : Nat} (h : a + n ≤ b) (v : Byte) :
    (m.write b v).readN a n = m.readN a n :=
  readN_congr fun i _ hi => by rw [read_write hm, if_neg (by omega)]

/-- Writing the byte behind a run appends it to the run. -/
theorem readN_write_succ {m : Memory} (hm : m.wf) (a n : Nat) (v : Byte) :
    (m.write (a + n) v).readN a (n + 1) = m.readN a n ++ [v] := by
  rw [readN_append, readN_write_of_le hm (Nat.le_refl _), readN_succ, read_write hm, if_pos rfl, readN_zero]

theorem bounded_write {m : Memory} {size a : Nat} (v : Byte) (h : ∀ c ∈ m, c.1 < size) (ha : a < size) :
    ∀ c ∈ m.write a v, c.1 < size := by
  intro c hc
  rcases mem_write hc with ⟨rfl, _⟩ | hc
  · exact ha
  · exact h c hc

theorem bounded_writeN {m : Memory} {size a : Nat} (vs : List Byte) (h : ∀ c ∈ m, c.1 < size)
    (ha : a + vs.length ≤ size) : ∀ c ∈ m.writeN a vs, c.1 < size := by
  induction vs generalizing m a with
  | nil => exact h
  | cons v vs ih =>
    simp only [List.length_cons] at ha
    exact ih (bounded_write v h (by omega)) (by omega)

end Sys2Proof.Machine.Memory
end

