-- ==== Sys2Proof/Laws/State.lean ====
section
/-! SUPPORT. The updates of State, field by field. -/

namespace Sys2Proof.Machine

/-! ### One event -/

@[simp] theorem emit_params (e : Event) (s : State) : (emit e s).params = s.params := rfl
@[simp] theorem emit_rx (e : Event) (s : State) : (emit e s).rx = s.rx := rfl
@[simp] theorem emit_dec (e : Event) (s : State) : (emit e s).dec = s.dec := rfl
@[simp] theorem emit_tx (e : Event) (s : State) : (emit e s).tx = s.tx := rfl
@[simp] theorem emit_flags (e : Event) (s : State) : (emit e s).flags = s.flags := rfl
@[simp] theorem emit_startPending (e : Event) (s : State) : (emit e s).startPending = s.startPending := rfl
@[simp] theorem emit_input (e : Event) (s : State) : (emit e s).input = s.input := rfl
@[simp] theorem emit_store (e : Event) (s : State) : (emit e s).store = s.store := rfl
@[simp] theorem emit_trace (e : Event) (s : State) : (emit e s).trace = s.trace ++ [e] := rfl
@[simp] theorem emit_debug (e : Event) (s : State) : (emit e s).dbg = s.dbg := rfl

/-! ### Flags -/

@[simp] theorem raise_params (c : Condition) (s : State) : (raise c s).params = s.params := rfl
@[simp] theorem raise_rx (c : Condition) (s : State) : (raise c s).rx = s.rx := rfl
@[simp] theorem raise_dec (c : Condition) (s : State) : (raise c s).dec = s.dec := rfl
@[simp] theorem raise_tx (c : Condition) (s : State) : (raise c s).tx = s.tx := rfl
@[simp] theorem raise_flags (c : Condition) (s : State) : (raise c s).flags = { s.flags with cond := c.cond } := rfl
@[simp] theorem raise_startPending (c : Condition) (s : State) : (raise c s).startPending = s.startPending := rfl
@[simp] theorem raise_input (c : Condition) (s : State) : (raise c s).input = s.input := rfl
@[simp] theorem raise_store (c : Condition) (s : State) : (raise c s).store = s.store := rfl
@[simp] theorem raise_trace (c : Condition) (s : State) : (raise c s).trace = s.trace := rfl
@[simp] theorem raise_debug (c : Condition) (s : State) : (raise c s).dbg = s.dbg := rfl

@[simp] theorem setHandled_params (v : Bool) (s : State) : (setHandled v s).params = s.params := rfl
@[simp] theorem setHandled_rx (v : Bool) (s : State) : (setHandled v s).rx = s.rx := rfl
@[simp] theorem setHandled_dec (v : Bool) (s : State) : (setHandled v s).dec = s.dec := rfl
@[simp] theorem setHandled_tx (v : Bool) (s : State) : (setHandled v s).tx = s.tx := rfl
@[simp] theorem setHandled_flags (v : Bool) (s : State) : (setHandled v s).flags = { s.flags with handled := v } := rfl
@[simp] theorem setHandled_startPending (v : Bool) (s : State) : (setHandled v s).startPending = s.startPending := rfl
@[simp] theorem setHandled_input (v : Bool) (s : State) : (setHandled v s).input = s.input := rfl
@[simp] theorem setHandled_store (v : Bool) (s : State) : (setHandled v s).store = s.store := rfl
@[simp] theorem setHandled_trace (v : Bool) (s : State) : (setHandled v s).trace = s.trace := rfl
@[simp] theorem setHandled_debug (v : Bool) (s : State) : (setHandled v s).dbg = s.dbg := rfl

@[simp] theorem latchVerdict_params (b : Byte) (s : State) : (latchVerdict b s).params = s.params := rfl
@[simp] theorem latchVerdict_rx (b : Byte) (s : State) : (latchVerdict b s).rx = { s.rx with phase := .hunt } := rfl
@[simp] theorem latchVerdict_dec (b : Byte) (s : State) : (latchVerdict b s).dec = s.dec := rfl
@[simp] theorem latchVerdict_tx (b : Byte) (s : State) : (latchVerdict b s).tx = s.tx := rfl
@[simp] theorem latchVerdict_flags (b : Byte) (s : State) : (latchVerdict b s).flags = { valid := verdict b s, handled := false, cond := .none } := rfl
@[simp] theorem latchVerdict_startPending (b : Byte) (s : State) : (latchVerdict b s).startPending = s.startPending := rfl
@[simp] theorem latchVerdict_input (b : Byte) (s : State) : (latchVerdict b s).input = s.input := rfl
@[simp] theorem latchVerdict_store (b : Byte) (s : State) : (latchVerdict b s).store = s.store := rfl
@[simp] theorem latchVerdict_trace (b : Byte) (s : State) : (latchVerdict b s).trace = s.trace := rfl
@[simp] theorem latchVerdict_debug (b : Byte) (s : State) : (latchVerdict b s).dbg = s.dbg := rfl

/-! ### Store calls -/

@[simp] theorem callExpired_params (kind : StoreKind) (s : State) : (callExpired kind s).params = s.params := rfl
@[simp] theorem callExpired_rx (kind : StoreKind) (s : State) : (callExpired kind s).rx = s.rx := rfl
@[simp] theorem callExpired_dec (kind : StoreKind) (s : State) : (callExpired kind s).dec = s.dec := rfl
@[simp] theorem callExpired_tx (kind : StoreKind) (s : State) : (callExpired kind s).tx = s.tx := rfl
@[simp] theorem callExpired_flags (kind : StoreKind) (s : State) : (callExpired kind s).flags = s.flags := rfl
@[simp] theorem callExpired_startPending (kind : StoreKind) (s : State) : (callExpired kind s).startPending = s.startPending := rfl
@[simp] theorem callExpired_input (kind : StoreKind) (s : State) : (callExpired kind s).input = s.input := rfl
@[simp] theorem callExpired_store (kind : StoreKind) (s : State) : (callExpired kind s).store = { s.store with expired := s.store.expired.tail, calls := s.store.calls + 1 } := rfl
@[simp] theorem callExpired_trace (kind : StoreKind) (s : State) : (callExpired kind s).trace = s.trace ++ [.getExp kind (expiredAnswer kind s)] := rfl
@[simp] theorem callExpired_debug (kind : StoreKind) (s : State) : (callExpired kind s).dbg = s.dbg := rfl

@[simp] theorem callElement_params (index : Nat) (s : State) : (callElement index s).params = s.params := rfl
@[simp] theorem callElement_rx (index : Nat) (s : State) : (callElement index s).rx = s.rx := rfl
@[simp] theorem callElement_dec (index : Nat) (s : State) : (callElement index s).dec = s.dec := rfl
@[simp] theorem callElement_tx (index : Nat) (s : State) : (callElement index s).tx = s.tx := rfl
@[simp] theorem callElement_flags (index : Nat) (s : State) : (callElement index s).flags = s.flags := rfl
@[simp] theorem callElement_startPending (index : Nat) (s : State) : (callElement index s).startPending = s.startPending := rfl
@[simp] theorem callElement_input (index : Nat) (s : State) : (callElement index s).input = s.input := rfl
@[simp] theorem callElement_store (index : Nat) (s : State) : (callElement index s).store = { s.store with elements := s.store.elements.tail, calls := s.store.calls + 1 } := rfl
@[simp] theorem callElement_trace (index : Nat) (s : State) : (callElement index s).trace = s.trace ++ [.getElem index (elementAnswer index s)] := rfl
@[simp] theorem callElement_debug (index : Nat) (s : State) : (callElement index s).dbg = s.dbg := rfl

@[simp] theorem callSize_params (index : Nat) (s : State) : (callSize index s).params = s.params := rfl
@[simp] theorem callSize_rx (index : Nat) (s : State) : (callSize index s).rx = s.rx := rfl
@[simp] theorem callSize_dec (index : Nat) (s : State) : (callSize index s).dec = s.dec := rfl
@[simp] theorem callSize_tx (index : Nat) (s : State) : (callSize index s).tx = s.tx := rfl
@[simp] theorem callSize_flags (index : Nat) (s : State) : (callSize index s).flags = s.flags := rfl
@[simp] theorem callSize_startPending (index : Nat) (s : State) : (callSize index s).startPending = s.startPending := rfl
@[simp] theorem callSize_input (index : Nat) (s : State) : (callSize index s).input = s.input := rfl
@[simp] theorem callSize_store (index : Nat) (s : State) : (callSize index s).store = { s.store with sizes := s.store.sizes.tail, calls := s.store.calls + 1 } := rfl
@[simp] theorem callSize_trace (index : Nat) (s : State) : (callSize index s).trace = s.trace ++ [.getSize index (sizeAnswer index s)] := rfl
@[simp] theorem callSize_debug (index : Nat) (s : State) : (callSize index s).dbg = s.dbg := rfl

/-! ### Reset -/

@[simp] theorem assertReset_params (s : State) : (assertReset s).params = s.params := rfl
@[simp] theorem assertReset_rx (s : State) : (assertReset s).rx = RxRegs.reset := rfl
@[simp] theorem assertReset_dec (s : State) : (assertReset s).dec = DecRegs.reset := rfl
@[simp] theorem assertReset_tx (s : State) : (assertReset s).tx = TxRegs.reset := rfl
@[simp] theorem assertReset_flags (s : State) : (assertReset s).flags = FlagRegs.reset := rfl
@[simp] theorem assertReset_startPending (s : State) : (assertReset s).startPending = true := rfl
@[simp] theorem assertReset_input (s : State) : (assertReset s).input = s.input := rfl
@[simp] theorem assertReset_store (s : State) : (assertReset s).store = s.store := rfl
@[simp] theorem assertReset_trace (s : State) : (assertReset s).trace = s.trace := rfl
@[simp] theorem assertReset_debug (s : State) : (assertReset s).dbg = s.dbg := rfl

/-! ### The staged request -/

@[simp] theorem stageRequest_params (cmd : Byte) (data : List Byte) (s : State) : (stageRequest cmd data s).params = s.params := rfl
@[simp] theorem stageRequest_rx (cmd : Byte) (data : List Byte) (s : State) : (stageRequest cmd data s).rx = s.rx := rfl
@[simp] theorem stageRequest_dec (cmd : Byte) (data : List Byte) (s : State) : (stageRequest cmd data s).dec = s.dec := rfl
@[simp] theorem stageRequest_tx (cmd : Byte) (data : List Byte) (s : State) : (stageRequest cmd data s).tx = { node := s.params.nodeIdTx, cmd := cmd, len := BitVec.ofNat 8 data.length, buf := s.tx.buf.writeN 0 data } := rfl
@[simp] theorem stageRequest_flags (cmd : Byte) (data : List Byte) (s : State) : (stageRequest cmd data s).flags = s.flags := rfl
@[simp] theorem stageRequest_startPending (cmd : Byte) (data : List Byte) (s : State) : (stageRequest cmd data s).startPending = s.startPending := rfl
@[simp] theorem stageRequest_input (cmd : Byte) (data : List Byte) (s : State) : (stageRequest cmd data s).input = s.input := rfl
@[simp] theorem stageRequest_store (cmd : Byte) (data : List Byte) (s : State) : (stageRequest cmd data s).store = s.store := rfl
@[simp] theorem stageRequest_trace (cmd : Byte) (data : List Byte) (s : State) : (stageRequest cmd data s).trace = s.trace := rfl
@[simp] theorem stageRequest_debug (cmd : Byte) (data : List Byte) (s : State) : (stageRequest cmd data s).dbg = s.dbg := rfl

/-! ### Debug texts: only the debug port changes (44 R211) -/

theorem debugTexts_eq (s : State) : debugTexts s = { s with dbg := (debugTexts s).dbg } := by
  unfold debugTexts; split <;> rfl

@[simp] theorem debugTexts_params (s : State) : (debugTexts s).params = s.params := by
  unfold debugTexts; split <;> rfl

@[simp] theorem debugTexts_rx (s : State) : (debugTexts s).rx = s.rx := by
  unfold debugTexts; split <;> rfl

@[simp] theorem debugTexts_dec (s : State) : (debugTexts s).dec = s.dec := by
  unfold debugTexts; split <;> rfl

@[simp] theorem debugTexts_tx (s : State) : (debugTexts s).tx = s.tx := by
  unfold debugTexts; split <;> rfl

@[simp] theorem debugTexts_flags (s : State) : (debugTexts s).flags = s.flags := by
  unfold debugTexts; split <;> rfl

@[simp] theorem debugTexts_startPending (s : State) : (debugTexts s).startPending = s.startPending := by
  unfold debugTexts; split <;> rfl

@[simp] theorem debugTexts_input (s : State) : (debugTexts s).input = s.input := by
  unfold debugTexts; split <;> rfl

@[simp] theorem debugTexts_store (s : State) : (debugTexts s).store = s.store := by
  unfold debugTexts; split <;> rfl

@[simp] theorem debugTexts_trace (s : State) : (debugTexts s).trace = s.trace := by
  unfold debugTexts; split <;> rfl

@[simp] theorem taking_params (s : State) (rest : List Input) : (s.taking rest).params = s.params := by
  simp [State.taking]

@[simp] theorem taking_rx (s : State) (rest : List Input) : (s.taking rest).rx = s.rx := by
  simp [State.taking]

@[simp] theorem taking_dec (s : State) (rest : List Input) : (s.taking rest).dec = s.dec := by
  simp [State.taking]

@[simp] theorem taking_tx (s : State) (rest : List Input) : (s.taking rest).tx = s.tx := by
  simp [State.taking]

@[simp] theorem taking_flags (s : State) (rest : List Input) : (s.taking rest).flags = s.flags := by
  simp [State.taking]

@[simp] theorem taking_startPending (s : State) (rest : List Input) : (s.taking rest).startPending = s.startPending := by
  simp [State.taking]

@[simp] theorem taking_input (s : State) (rest : List Input) : (s.taking rest).input = rest := by
  simp [State.taking]

@[simp] theorem taking_store (s : State) (rest : List Input) : (s.taking rest).store = s.store := by
  simp [State.taking]

@[simp] theorem taking_trace (s : State) (rest : List Input) : (s.taking rest).trace = s.trace := by
  simp [State.taking]

/-! ### Outcomes -/

@[simp] theorem andThen_next (s : State) (f : State → State) : andThen (.next s) f = .next (f s) := rfl

@[simp] theorem andThen_fault (r : Fault) (f : State → State) : andThen (.fault r) f = .fault r := rfl

@[simp] theorem andThen_refused (r : Refusal) (f : State → State) : andThen (.refused r) f = .refused r := rfl

/-- What a sequenced outcome that goes on came from. -/
theorem andThen_eq_next {o : Host.Outcome State Fault Refusal} {f : State → State} {t : State}
    (h : andThen o f = .next t) : ∃ s, o = .next s ∧ t = f s := by
  cases o with
  | next s => exact ⟨s, rfl, by simpa using h.symm⟩
  | fault r => cases h
  | refused r => cases h

end Sys2Proof.Machine
end

