-- ==== Sys2Proof/Laws/DataBlock.lean ====
section
/-! SUPPORT. The Data-Block Decoder: its frame, and its loop as a fold over the groups of the payload. -/

namespace Sys2Proof.Laws

open Sys2Proof.Machine Sys2Proof.Safety

/-! ### The frame: only the decoder's registers and the trace -/

/-- The events a decode can put out (42 R173). -/
def isElementEvent : Event → Bool
  | .set _ _ _ => true
  | .fwdV _ _ _ => true
  | _ => false

/-- `t` is `s` but for the decoder's registers and more element events. -/
def DecoderOnly (s t : State) : Prop :=
  ∃ d evs, t = { s with dec := d, trace := s.trace ++ evs } ∧ ∀ e ∈ evs, isElementEvent e = true

theorem DecoderOnly.refl (s : State) : DecoderOnly s s := ⟨s.dec, [], by simp, by simp⟩

theorem DecoderOnly.trans {s t u : State} (h : DecoderOnly s t) (h' : DecoderOnly t u) : DecoderOnly s u := by
  obtain ⟨d, evs, rfl, he⟩ := h
  obtain ⟨d', evs', rfl, he'⟩ := h'
  refine ⟨d', evs ++ evs', by simp, fun e h => ?_⟩
  rcases List.mem_append.mp h with h | h
  · exact he e h
  · exact he' e h

theorem DecoderOnly.of_dec (s : State) (d : DecRegs) : DecoderOnly s { s with dec := d } :=
  ⟨d, [], by simp, by simp⟩

/-- What `flush()` emits with a real address (42 R173). -/
theorem flush_valid {s : State} (h : s.dec.addrValid = true) : flush s =
    { s with
      dec := { s.dec with size := 0 }
      trace := s.trace ++ elementEvents s.params { addr := s.dec.addr, bytes := curValue s } } := by
  cases hf : s.params.forwardHook <;>
    simp [flush, h, forwardValue, emitForward, hf, storeSetValue, emit, elementEvents, curValue]

/-- What `flush()` does without one (42 R173). -/
theorem flush_invalid {s : State} (h : s.dec.addrValid = false) :
    flush s = { s with dec := { s.dec with size := 0 } } := by
  simp [flush, h]

theorem decoderOnly_flush (s : State) : DecoderOnly s (flush s) := by
  cases hv : s.dec.addrValid with
  | false => exact ⟨_, [], by simp [flush, hv]; rfl, by simp⟩
  | true =>
    cases hf : s.params.forwardHook with
    | false =>
      exact ⟨_, [.set s.dec.addr (curValue s) s.dec.size],
        by simp [flush, hv, forwardValue, emitForward, hf, storeSetValue, emit]; rfl, by simp [isElementEvent]⟩
    | true =>
      exact ⟨_, [.set s.dec.addr (curValue s) s.dec.size, .fwdV s.dec.addr (curValue s) s.dec.size],
        by simp [flush, hv, forwardValue, emitForward, hf, storeSetValue, emit]; rfl, by simp [isElementEvent]⟩

theorem decoderOnly_flushNonempty (s : State) : DecoderOnly s (flushNonempty s) := by
  unfold flushNonempty; split
  · exact decoderOnly_flush s
  · exact .refl s

theorem decoderOnly_flushOnAddress (a : Addr) (s : State) : DecoderOnly s (flushOnAddress a s) := by
  unfold flushOnAddress; split
  · exact decoderOnly_flushNonempty s
  · exact .refl s

theorem decoderOnly_takeAddress (a : Addr) (s : State) : DecoderOnly s (takeAddress a s) := by
  unfold takeAddress; split
  · exact .of_dec s _
  · exact .refl s

theorem decoderOnly_appendValue (v0 v1 : Byte) (s : State) : DecoderOnly s (appendValue v0 v1 s) := by
  unfold appendValue; split
  · exact .of_dec s _
  · exact .refl s

/-! ### The loop as a fold over groups -/

/-- Steps 2 to 5 on a group that has been read (42 R168 to R171). -/
def stepGroup (s : State) (g : Group) : State :=
  advanceGroup (appendValue g.v0 g.v1 (takeAddress g.addr (flushOnAddress g.addr s)))

/-- A continuation group only appends (42 R170). -/
theorem stepGroup_continuation {g : Group} (hg : g.isContinuation = true) (s : State) :
    stepGroup s g = advanceGroup (appendValue g.v0 g.v1 s) := by
  have : g.addr = Config.sentinelAddr := by simpa [Group.isContinuation] using hg
  simp [stepGroup, flushOnAddress, takeAddress, this]

/-- A real-address group flushes what is accumulated and takes its address first (42 R168, R169). -/
theorem stepGroup_real {g : Group} (hg : g.isContinuation = false) (s : State) :
    stepGroup s g = advanceGroup (appendValue g.v0 g.v1
      { flushNonempty s with dec := { (flushNonempty s).dec with addr := g.addr, addrValid := true } }) := by
  have : g.addr ≠ Config.sentinelAddr := by simpa [Group.isContinuation] using hg
  rw [stepGroup, flushOnAddress, if_pos this, takeAddress, if_pos this]

theorem decoderOnly_stepGroup (g : Group) (s : State) : DecoderOnly s (stepGroup s g) :=
  (((decoderOnly_flushOnAddress _ s).trans (decoderOnly_takeAddress _ _)).trans
    (decoderOnly_appendValue _ _ _)).trans (.of_dec _ _)

theorem decoderOnly_foldl (gs : List Group) (s : State) : DecoderOnly s (gs.foldl stepGroup s) := by
  induction gs generalizing s with
  | nil => exact .refl s
  | cons g gs ih => exact (decoderOnly_stepGroup g s).trans (ih _)

@[simp] theorem flush_pos (s : State) : (flush s).dec.pos = s.dec.pos := by
  cases hv : s.dec.addrValid <;> cases hf : s.params.forwardHook <;>
    simp [flush, hv, forwardValue, emitForward, hf, storeSetValue]

@[simp] theorem flushNonempty_pos (s : State) : (flushNonempty s).dec.pos = s.dec.pos := by
  unfold flushNonempty; split <;> simp

theorem stepGroup_pos (g : Group) (s : State) : (stepGroup s g).dec.pos = s.dec.pos + 4 := by
  have h1 : (flushOnAddress g.addr s).dec.pos = s.dec.pos := by unfold flushOnAddress; split <;> simp
  have h2 : ∀ u : State, (takeAddress g.addr u).dec.pos = u.dec.pos := by
    intro u; unfold takeAddress; split <;> rfl
  have h3 : ∀ u : State, (appendValue g.v0 g.v1 u).dec.pos = u.dec.pos := by
    intro u; unfold appendValue; split <;> rfl
  simp [stepGroup, advanceGroup, h1, h2, h3]

theorem foldl_pos (gs : List Group) (s : State) : (gs.foldl stepGroup s).dec.pos = s.dec.pos + 4 * gs.length := by
  induction gs generalizing s with
  | nil => rfl
  | cons g gs ih => rw [List.foldl_cons, ih, stepGroup_pos, List.length_cons]; omega

theorem length_groupsOf (payload : List Byte) : (groupsOf payload).length = payload.length / 4 := by
  induction payload using groupsOf.induct with
  | case1 hi lo v0 v1 rest ih => simp only [groupsOf, List.length_cons, ih]; omega
  | case2 l h =>
    match l, h with
    | [], _ => rfl
    | [_], _ => simp [groupsOf]
    | [_, _], _ => simp [groupsOf]
    | [_, _, _], _ => simp [groupsOf]
    | a :: b :: c :: d :: r, h => exact absurd rfl (h a b c d r)

/-- While a complete group remains, the group at `pos` is the first of the rest. -/
theorem groupsOf_drop {payload : List Byte} {pos : Nat} (h : pos + 4 ≤ payload.length) :
    groupsOf (payload.drop pos) =
      { addr := groupAddr payload pos, v0 := payloadByte payload (pos + 2), v1 := payloadByte payload (pos + 3) } ::
        groupsOf (payload.drop (pos + 4)) := by
  have e : payload.drop pos = payload[pos] :: payload[pos + 1] :: payload[pos + 2] :: payload[pos + 3] ::
      payload.drop (pos + 4) := by
    rw [List.drop_eq_getElem_cons (by omega), List.drop_eq_getElem_cons (i := pos + 1) (by omega),
      List.drop_eq_getElem_cons (i := pos + 2) (by omega), List.drop_eq_getElem_cons (i := pos + 3) (by omega)]
  rw [e, groupsOf]
  have g : ∀ i (hi : i < payload.length), payload.getD i 0 = payload[i] := fun i hi => List.getD_eq_getElem _ _ hi
  simp only [groupAddr, payloadByte]
  rw [g pos (by omega), g (pos + 1) (by omega), g (pos + 2) (by omega), g (pos + 3) (by omega)]

theorem groupsOf_short {payload : List Byte} {pos : Nat} (h : ¬ pos + 4 ≤ payload.length) :
    groupsOf (payload.drop pos) = [] := by
  apply List.eq_nil_of_length_eq_zero
  rw [length_groupsOf, List.length_drop]
  omega

/-- The loop takes as many groups as its fuel and the payload allow. -/
theorem groupLoop_eq (payload : List Byte) (fuel : Nat) (s : State) :
    groupLoop payload fuel s = ((groupsOf (payload.drop s.dec.pos)).take fuel).foldl stepGroup s := by
  induction fuel generalizing s with
  | zero => simp [groupLoop]
  | succ fuel ih =>
    rw [groupLoop]
    split
    · rename_i h
      rw [groupsOf_drop h, List.take_succ_cons, List.foldl_cons, ih]
      have e : groupStep payload s = stepGroup s
          { addr := groupAddr payload s.dec.pos, v0 := payloadByte payload (s.dec.pos + 2),
            v1 := payloadByte payload (s.dec.pos + 3) } := rfl
      rw [e, stepGroup_pos]
    · rename_i h
      rw [groupsOf_short h]; rfl

/-- A decode is a fold over the groups of the payload, then the end-of-payload flush (42 R165, R172). -/
theorem decodeElements_eq (payload : List Byte) (s : State) :
    decodeElements payload s = flushNonempty ((groupsOf payload).foldl stepGroup (decodeStart s)) := by
  rw [decodeElements, groupLoop_eq]
  have h : (decodeStart s).dec.pos = 0 := rfl
  rw [h, List.drop_zero, List.take_of_length_le (by rw [length_groupsOf]; omega)]

theorem decoderOnly_decodeElements (payload : List Byte) (s : State) : DecoderOnly s (decodeElements payload s) := by
  rw [decodeElements_eq]
  exact ((DecoderOnly.of_dec s _).trans (decoderOnly_foldl _ _)).trans (decoderOnly_flushNonempty _)

theorem decodeElements_pos (payload : List Byte) (s : State) :
    (decodeElements payload s).dec.pos = 4 * (payload.length / 4) := by
  rw [decodeElements_eq, flushNonempty_pos, foldl_pos, length_groupsOf]
  simp [decodeStart]

theorem flush_size (s : State) : (flush s).dec.size = 0 := rfl

theorem decodeElements_size (payload : List Byte) (s : State) : (decodeElements payload s).dec.size = 0 := by
  unfold decodeElements flushNonempty
  split
  · exact flush_size _
  · rename_i h; simpa using h

end Sys2Proof.Laws
end

