-- ==== Sys2Proof/Laws/PerInstr.lean ====
section
/-! SUPPORT. Per instruction: how many bytes its encoding has. -/

namespace Sys2Proof.Laws.EncodedLength

/-- The bytes of an instruction on the wire: a control byte is one, a frame is six and its data (30 R90, R91). -/
def size : Instr → Nat
  | .datablock payload => 6 + payload.length
  | .readdata payload => 6 + payload.length
  | .readreq payload => 6 + payload.length
  | .writereq payload => 6 + payload.length
  | .ack payload => 6 + payload.length
  | .nak payload => 6 + payload.length
  | .unknown _ payload => 6 + payload.length
  | .txAck => 1
  | .txNak => 1
  | .txReadreq _ => 8
  | .txWritereq _ value => 8 + value.length

/-- The encoding has that many bytes. -/
def Statement (i : Instr) : Prop := ∀ p : Params, (encode p i).length = size i

theorem datablock (payload : List Byte) : Statement (.datablock payload) := fun _ => by simp [encode, size]
theorem readdata (payload : List Byte) : Statement (.readdata payload) := fun _ => by simp [encode, size]
theorem readreq (payload : List Byte) : Statement (.readreq payload) := fun _ => by simp [encode, size]
theorem writereq (payload : List Byte) : Statement (.writereq payload) := fun _ => by simp [encode, size]
theorem ack (payload : List Byte) : Statement (.ack payload) := fun _ => by simp [encode, size]
theorem nak (payload : List Byte) : Statement (.nak payload) := fun _ => by simp [encode, size]
theorem unknown (command : Byte) (payload : List Byte) : Statement (.unknown command payload) := fun _ => by
  simp [encode, size]
theorem txAck : Statement .txAck := fun _ => rfl
theorem txNak : Statement .txNak := fun _ => rfl
theorem txReadreq (ident : Addr) : Statement (.txReadreq ident) := fun _ => by simp [encode, size]
theorem txWritereq (ident : Addr) (value : List Byte) : Statement (.txWritereq ident value) := fun _ => by
  simp [encode, size]; omega

end Sys2Proof.Laws.EncodedLength
end

