-- ==== Sys2Proof/Laws/Step.lean ====
section
/-! SUPPORT. What a step can do: one inversion lemma for the step, for a received byte, for frame completion and for each
shape of instruction. -/

namespace Sys2Proof.Laws

open Sys2Proof.Machine Sys2Proof.Safety

/-! ### Sending and falling back -/

theorem sendAck_eq (s : State) : sendAck s = { s with trace := s.trace ++ [.tx [Config.ackByte]] } := rfl

theorem sendNak_eq (s : State) : sendNak s = { s with trace := s.trace ++ [.tx [Config.nakByte]] } := rfl

theorem reportStatus_eq (s : State) : reportStatus s =
    { s with trace := s.trace ++ [.status s.flags.valid s.flags.handled s.flags.cond] } := rfl

theorem fallBackToAck_eq (c : Condition) (s : State) : fallBackToAck c s =
    { s with flags := { s.flags with cond := c.cond }, trace := s.trace ++ [.tx [Config.ackByte]] } := rfl

/-- Sending what is staged: the events of the staged frame, nothing else (43 R194). -/
theorem sendStaged_eq (s : State) :
    sendStaged s = { s with trace := s.trace ++ requestEvents s.params (stagedFrame s) } := by
  cases hf : s.params.forwardHook <;>
    simp [sendStaged, forwardFrame, emitForward, hf, transmit, emit, requestEvents]

/-- What the staging registers hold is what was staged, if its length fits a byte (43 R194). -/
theorem stagedFrame_stageRequest {s : State} (hm : s.tx.buf.wf) (cmd : Byte) {data : List Byte}
    (h : data.length ≤ 255) : stagedFrame (stageRequest cmd data s) = requestFrame s.params cmd data := by
  simp only [stagedFrame, stageRequest_params, stageRequest_tx, toNat_ofNat_of_le h, Memory.readN_writeN hm, requestFrame]

/-- A request that is staged and sent (43 R188, R189, R194). -/
theorem sendStaged_stageRequest {s : State} (hm : s.tx.buf.wf) (cmd : Byte) {data : List Byte} (h : data.length ≤ 255) :
    sendStaged (stageRequest cmd data s) = { s with
      tx := { node := s.params.nodeIdTx, cmd := cmd, len := BitVec.ofNat 8 data.length, buf := s.tx.buf.writeN 0 data }
      trace := s.trace ++ requestEvents s.params (requestFrame s.params cmd data) } := by
  rw [sendStaged_eq, stagedFrame_stageRequest hm cmd h]; rfl

/-- A request that is staged and sent changes the staging registers and the trace, by a reply of its own (43 R194). -/
theorem sendStaged_stageRequest_frame (cmd : Byte) (data : List Byte) (s : State) : ∃ r bytes,
    sendStaged (stageRequest cmd data s) =
      { s with tx := r, trace := s.trace ++ requestEvents s.params bytes } := by
  rw [sendStaged_eq]; exact ⟨_, _, rfl⟩

/-! ### The instructions, by shape -/

/-- DATABLOCK and READDATA (44 R202, R203). -/
theorem handleData_frame (payload : List Byte) (s : State) : ∃ d evs,
    handleData payload s = { s with
      dec := d, flags := { s.flags with handled := true }
      trace := s.trace ++ .tx [Config.ackByte] :: evs } ∧ ∀ e ∈ evs, isElementEvent e = true := by
  obtain ⟨d, evs, h, he⟩ := decoderOnly_decodeElements payload (sendAck s)
  refine ⟨d, evs, ?_, he⟩
  rw [handleData, h, sendAck_eq]
  simp [setHandled]

/-- ACK, NAK and UNKNOWN (44 R206 to R208). -/
theorem handleUnhandled_eq (cmd : Byte) (s : State) : handleUnhandled cmd s = { s with
    flags := { s.flags with handled := false, cond := .unknownCommand }
    trace := s.trace ++ [.tx [Config.ackByte]] } := rfl

/-- The events of acquiring an entry (43 R195). -/
def acquireEvents (kind : StoreKind) (s : State) : List Event :=
  match expiredAnswer kind s with
  | none => [.getExp kind none]
  | some index => [.getExp kind (some index), .getElem index (elementAnswer index (callExpired kind s))]

/-- Acquiring an entry changes the store port and the trace (43 R186, R187). -/
theorem acquire_eq (kind : StoreKind) (s : State) : acquire kind s =
    { s with store := (acquire kind s).store, trace := s.trace ++ acquireEvents kind s } := by
  unfold acquire acquireEvents
  cases h : expiredAnswer kind s with
  | none => simp [callExpired, emit, h]
  | some index => simp [callElement, callExpired, emit, h, elementAnswer]

/-- The conditions that acquiring can fail with (43 R195). -/
theorem acquired_failed {kind : StoreKind} {s : State} {c : Condition} (h : acquired kind s = .failed c) :
    c.cond = .noPending ∨ c.cond = .missingElement := by
  unfold acquired at h
  split at h
  · cases h; exact .inl rfl
  · split at h
    · cases h; exact .inr rfl
    · cases h

/-- Events of the store calls that ask for an entry (43 R195). -/
def isAsk : Event → Bool
  | .getExp _ _ => true
  | .getElem _ _ => true
  | .getSize _ _ => true
  | _ => false

theorem acquireEvents_asks (kind : StoreKind) (s : State) : ∀ e ∈ acquireEvents kind s, isAsk e = true := by
  unfold acquireEvents; split <;> simp [isAsk]

theorem acquireEvents_kinds (kind : StoreKind) (s : State) : (acquireEvents kind s).filterMap expiredKind? = [kind] := by
  unfold acquireEvents; split <;> simp [expiredKind?]

/-- What the answer to a request frame is: after the store calls, a bare ACK with a builder condition, or a request frame
that is staged and sent (43 R195). -/
def Answered (kind : StoreKind) (cmd : Byte) (s v : State) : Prop :=
  ∃ st asks, (∀ e ∈ asks, isAsk e = true) ∧ asks.filterMap expiredKind? = [kind] ∧
    ((∃ c : Cond, (c = .noPending ∨ c = .missingElement ∨ kind = .readWrite ∧ c = .reqTooLong) ∧
        v = { s with
          store := st, flags := { s.flags with cond := c }, trace := s.trace ++ asks ++ [.tx [Config.ackByte]] }) ∨
      (∃ ident value, (kind = .read → value = []) ∧ (kind = .readWrite → 2 + value.length ≤ s.params.maxData) ∧
        v = sendStaged (stageRequest cmd (requestData ident value) { s with store := st, trace := s.trace ++ asks })))

/-- READREQ (44 R204). -/
theorem answered_read (s : State) : Answered .read s.params.cmdReadreq s (answerReadreq s) := by
  refine ⟨(acquire .read s).store, acquireEvents .read s, acquireEvents_asks _ _, acquireEvents_kinds _ _, ?_⟩
  unfold answerReadreq
  cases h : acquired .read s with
  | failed c =>
    refine .inl ⟨c.cond, (acquired_failed h).imp id .inl, ?_⟩
    show fallBackToAck c (acquire .read s) = _
    rw [acquire_eq, fallBackToAck_eq]
  | entry index element =>
    refine .inr ⟨element.identifier, [], fun _ => rfl, (by simp), ?_⟩
    show sendReadRequest element.identifier (acquire .read s) = _
    rw [acquire_eq, sendReadRequest]

/-- The state after GETSIZE, from the state before any store call (43 R195). -/
theorem callSize_acquire (kind : StoreKind) (index : Nat) (s : State) : callSize index (acquire kind s) =
    { s with
      store := (callSize index (acquire kind s)).store
      trace := s.trace ++ (acquireEvents kind s ++ [.getSize index (sizeAnswer index (acquire kind s))]) } := by
  have h : ∀ u : State, callSize index u =
      { u with store := (callSize index u).store, trace := u.trace ++ [.getSize index (sizeAnswer index u)] } :=
    fun u => rfl
  rw [h]
  conv_lhs => rw [acquire_eq]
  simp only [List.append_assoc]
  rfl

/-- WRITEREQ (44 R205). -/
theorem answered_write {s v : State} (h : answerWritereq s = .next v) : Answered .readWrite s.params.cmdWritereq s v := by
  unfold answerWritereq at h
  cases ha : acquired .readWrite s with
  | failed c =>
    rw [ha] at h
    refine ⟨(acquire .readWrite s).store, acquireEvents .readWrite s, acquireEvents_asks _ _, acquireEvents_kinds _ _,
      .inl ⟨c.cond, (acquired_failed ha).imp id .inl, ?_⟩⟩
    have h : fallBackToAck c (acquire .readWrite s) = v := by cases h; rfl
    rw [← h, acquire_eq, fallBackToAck_eq]
  | entry index element =>
    rw [ha] at h
    have h : writeEntry index (sizeAnswer index (acquire .readWrite s)) element (callSize index (acquire .readWrite s))
        = .next v := h
    have hp : (callSize index (acquire .readWrite s)).params = s.params := by rw [callSize_acquire]
    refine ⟨(callSize index (acquire .readWrite s)).store,
      acquireEvents .readWrite s ++ [.getSize index (sizeAnswer index (acquire .readWrite s))], fun e he => ?_, ?_, ?_⟩
    · rcases List.mem_append.mp he with he | he
      · exact acquireEvents_asks _ _ e he
      · rw [List.mem_singleton.mp he]; rfl
    · rw [List.filterMap_append, acquireEvents_kinds]; rfl
    · unfold writeEntry at h
      split at h
      · cases h
        refine .inl ⟨.reqTooLong, .inr (.inr ⟨rfl, rfl⟩), ?_⟩
        rw [callSize_acquire, fallBackToAck_eq]; rfl
      · rename_i hfit
        split at h
        · cases h
        · rename_i hlen
          cases h
          refine .inr ⟨element.identifier, element.value.take (sizeAnswer index (acquire .readWrite s)), (by simp), fun _ => ?_, ?_⟩
          · simp only [tooLong, hp, decide_eq_true_eq] at hfit
            rw [List.length_take]; omega
          · rw [callSize_acquire, sendWriteRequest]

/-- What the answer changes: store port, staging registers, condition, and a trace that gains the asks and one reply. -/
theorem Answered.frame {kind : StoreKind} {cmd : Byte} {s v : State} (h : Answered kind cmd s v) :
    ∃ st r c evs, v = { s with store := st, tx := r, flags := { s.flags with cond := c }, trace := s.trace ++ evs } ∧
      evs.filterMap expiredKind? = [kind] ∧ evs.filterMap status? = [] ∧ evs.filter isSet = [] := by
  obtain ⟨st, asks, ha, hk, h⟩ := h
  have h1 : asks.filterMap status? = [] := List.filterMap_eq_nil_iff.mpr fun e he => by
    have := ha e he; cases e <;> simp_all [isAsk, status?]
  have h2 : asks.filter isSet = [] := List.filter_eq_nil_iff.mpr fun e he => by
    have := ha e he; cases e <;> simp_all [isAsk, isSet]
  rcases h with ⟨c, _, rfl⟩ | ⟨ident, value, _, _, rfl⟩
  · exact ⟨st, s.tx, c, asks ++ [.tx [Config.ackByte]], by simp, by simp [hk, expiredKind?], by simp [h1, status?],
      by simp [h2, isSet]⟩
  · rw [sendStaged_eq]
    refine ⟨st, _, s.flags.cond, asks ++ requestEvents s.params _, by simp [stageRequest]; exact ⟨rfl, rfl⟩, ?_, ?_, ?_⟩
    · unfold requestEvents; split <;> simp [hk, expiredKind?]
    · unfold requestEvents; split <;> simp [h1, status?]
    · unfold requestEvents; split <;> simp [h2, isSet]

/-- A valid frame's instruction, by the class of its command byte (44 R200). -/
theorem exec_fetchInstr {s v : State} (h : exec (fetchInstr s) s = .next v) :
    ((classify s.params s.rx.cmd = .datablock ∨ classify s.params s.rx.cmd = .readdata) ∧
      v = handleData (rxPayload s) s) ∨
    (classify s.params s.rx.cmd = .readreq ∧ v = answerReadreq (setHandled true s)) ∨
    (classify s.params s.rx.cmd = .writereq ∧ answerWritereq (setHandled true s) = .next v) ∨
    (CommandHandled (classify s.params s.rx.cmd) = false ∧ ∃ c, v = handleUnhandled c s) := by
  unfold fetchInstr inboundInstr at h
  cases hc : classify s.params s.rx.cmd <;> rw [hc] at h <;>
    simp only [exec, execDatablock, execReaddata, execReadreq, execWritereq, execAck, execNak, execUnknown] at h
  · cases h; exact .inl ⟨.inl rfl, rfl⟩
  · cases h; exact .inl ⟨.inr rfl, rfl⟩
  · cases h; exact .inr (.inl ⟨rfl, rfl⟩)
  · exact .inr (.inr (.inl ⟨rfl, h⟩))
  · cases h; exact .inr (.inr (.inr ⟨rfl, _, rfl⟩))
  · cases h; exact .inr (.inr (.inr ⟨rfl, _, rfl⟩))
  · cases h; exact .inr (.inr (.inr ⟨rfl, _, rfl⟩))

/-! ### Frame completion -/

/-- Completion goes on from a valid frame's instruction, or from NAK (40 R131, 41 R151). -/
theorem csumByte_next {b : Byte} {s t : State} (h : csumByte b s = .next t) :
    (verdict b s = true ∧ s.rx.len.toNat ≤ s.params.maxData ∧
      ∃ v, exec (fetchInstr (latchVerdict b s)) (latchVerdict b s) = .next v ∧ t = reportStatus v) ∨
    (verdict b s = false ∧
      t = reportStatus (sendNak (raise (invalidCondition b (latchVerdict b s)) (latchVerdict b s)))) := by
  obtain ⟨v, hv, rfl⟩ := andThen_eq_next h
  cases hok : verdict b s with
  | true =>
    rw [if_pos (show (latchVerdict b s).flags.valid = true from hok), dispatch] at hv
    split at hv
    · rename_i hlen; exact .inl ⟨rfl, hlen, v, hv, rfl⟩
    · cases hv
  | false =>
    rw [if_neg (show ¬ (latchVerdict b s).flags.valid = true by simp [hok])] at hv
    cases hv; exact .inr ⟨rfl, rfl⟩

/-- A byte that completes no frame changes the frame registers only (40 R125 to R130). -/
theorem receiveByte_silent {b : Byte} {s : State} (h : s.rx.phase ≠ .csum) :
    ∃ r, receiveByte b s = .next { s with rx := r } := by
  have hh : ∀ u : State, ∃ r, huntByte b u = { u with rx := r } := by
    intro u; unfold huntByte; split <;> exact ⟨_, rfl⟩
  have hp : ∀ e n, ∃ r, prefixByte e n b s = { s with rx := r } := by
    intro e n; unfold prefixByte
    split
    · obtain ⟨r, hr⟩ := hh { s with rx := { s.rx with phase := .hunt } }
      exact ⟨r, hr⟩
    · exact ⟨_, rfl⟩
  unfold receiveByte
  cases hph : s.rx.phase with
  | hunt => obtain ⟨r, hr⟩ := hh s; exact ⟨r, by rw [hr]⟩
  | pfx1 => obtain ⟨r, hr⟩ := hp s.params.prefix1 .pfx2; exact ⟨r, by rw [pfx1Byte, hr]⟩
  | pfx2 => obtain ⟨r, hr⟩ := hp s.params.prefix2 .cmd; exact ⟨r, by rw [pfx2Byte, hr]⟩
  | cmd => exact ⟨_, rfl⟩
  | len => exact ⟨_, rfl⟩
  | data => exact ⟨_, rfl⟩
  | csum => exact absurd hph h

theorem receiveByte_csum {b : Byte} {s : State} (h : s.rx.phase = .csum) : receiveByte b s = csumByte b s := by
  unfold receiveByte; rw [h]

/-- The start-up step (70 R253). -/
theorem startUp_eq (s : State) : startUp s = { debugTexts s with
    startPending := false
    trace := s.trace ++ s.params.errorSentinels.map fun entry => Event.setErr entry.1 entry.2 } := by
  have h : ∀ (l : List (SentinelType × Nat)) (u : State),
      l.foldl (fun acc entry => storeSetErrorSentinel entry.1 entry.2 acc) u =
        { u with trace := u.trace ++ l.map fun entry => Event.setErr entry.1 entry.2 } := by
    intro l
    induction l with
    | nil => intro u; simp
    | cons a l ih => intro u; rw [List.foldl_cons, ih]; simp [storeSetErrorSentinel, emit]
  rw [startUp, registerSentinels, h]
  simp

/-! ### The step -/

theorem step_startPending {s : State} (h : s.startPending = true) : step s = .next (startUp s) := by
  rw [step, if_pos h]

theorem step_input {s : State} {i : Input} {rest : List Input} (h : s.startPending = false)
    (hi : s.input = i :: rest) : step s = takeInput i (s.taking rest) := by
  rw [step, if_neg (by simp [h]), hi]

theorem step_reads {s : State} {b : Byte} {rest : List Input} (h : Reads s b rest) :
    step s = receiveByte b (s.taking rest) :=
  step_input h.1 h.2

theorem step_idle {s : State} (h : s.startPending = false) (hi : s.input = []) : step s = .next s := by
  rw [step, if_neg (by simp [h]), hi]

/-- Everything a step can do. -/
theorem step_cases {s t : State} (h : step s = .next t) :
    (s.startPending = true ∧ t = startUp s) ∨
    (s.startPending = false ∧ s.input = [] ∧ t = s) ∨
    (s.startPending = false ∧ ∃ rest, s.input = .reset :: rest ∧ t = assertReset (s.taking rest)) ∨
    (∃ b rest, Reads s b rest ∧ s.rx.phase ≠ .csum ∧ ∃ r, t = { s.taking rest with rx := r } ∧
      receiveByte b (s.taking rest) = .next t) ∨
    (∃ b rest, Reads s b rest ∧ s.rx.phase = .csum ∧ csumByte b (s.taking rest) = .next t) := by
  cases hp : s.startPending with
  | true =>
    rw [step_startPending hp] at h
    cases h; exact .inl ⟨rfl, rfl⟩
  | false =>
    cases hi : s.input with
    | nil =>
      rw [step_idle hp hi] at h
      cases h; exact .inr (.inl ⟨rfl, rfl, rfl⟩)
    | cons i rest =>
      rw [step_input hp hi] at h
      cases i with
      | reset => cases h; exact .inr (.inr (.inl ⟨rfl, rest, rfl, rfl⟩))
      | byte b =>
        have h : receiveByte b (s.taking rest) = .next t := h
        by_cases hc : s.rx.phase = .csum
        · rw [receiveByte_csum (by simpa using hc)] at h
          exact .inr (.inr (.inr (.inr ⟨b, rest, ⟨hp, hi⟩, hc, h⟩)))
        · obtain ⟨r, hr⟩ := receiveByte_silent (b := b) (s := s.taking rest) (by simpa using hc)
          have ht : t = { s.taking rest with rx := r } := by rw [hr] at h; cases h; rfl
          exact .inr (.inr (.inr (.inl ⟨b, rest, ⟨hp, hi⟩, hc, r, ht, h⟩)))

/-! ### Several steps -/

theorem steps_next {s t : State} (k : Nat) (h : step s = .next t) : steps (k + 1) s = steps k t := by
  rw [steps, h]

theorem run_next {M : Host.Core} {s t : M.State} (k : Nat) (h : M.step s = .next t) : M.run (k + 1) s = M.run k t := by
  rw [Host.Core.run, h]

theorem run_fault {M : Host.Core} {s : M.State} {r : M.Fault} (k : Nat) (h : M.step s = .fault r) :
    M.run (k + 1) s = .fault r := by
  rw [Host.Core.run, h]

theorem run_refused {M : Host.Core} {s : M.State} {r : M.Refusal} (k : Nat) (h : M.step s = .refused r) :
    M.run (k + 1) s = .refused r := by
  rw [Host.Core.run, h]

/-- The steps of Safety are those of the host's interface. -/
theorem steps_eq_run (k : Nat) (s : State) : steps k s = Sys2Proof.core.run k s := by
  induction k generalizing s with
  | zero => rfl
  | succ k ih =>
    rw [steps]
    cases h : step s with
    | next t => exact (ih t).trans (run_next (M := Sys2Proof.core) k h).symm
    | fault r => exact (run_fault (M := Sys2Proof.core) k h).symm
    | refused r => exact (run_refused (M := Sys2Proof.core) k h).symm

theorem completing_reads {s : State} {b : Byte} {rest : List Input} (h : Reads s b rest) (hc : s.rx.phase = .csum) :
    completing s = some b := by
  simp [completing, h.1, h.2, hc]

theorem completing_none {s : State} (h : s.startPending = true ∨ s.rx.phase ≠ .csum ∨ ∀ b rest, s.input ≠ .byte b :: rest) :
    completing s = none := by
  unfold completing
  split
  · rename_i h1 h2 h3
    rcases h with h | h | h
    · rw [h] at h1; cases h1
    · exact absurd h2 h
    · exact absurd h3 (h _ _)
  · rfl

theorem completingValid_reads {s : State} {b : Byte} {rest : List Input} (h : Reads s b rest) (hc : s.rx.phase = .csum) :
    completingValid s = if verdict b s then some (classify s.params s.rx.cmd) else none := by
  simp [completingValid, completing_reads h hc]

theorem verdict_taking (b : Byte) (s : State) (rest : List Input) : verdict b (s.taking rest) = verdict b s := by
  simp [verdict]

theorem reportStatus_trace {s v : State} {evs : List Event} (h : v.trace = s.trace ++ evs) :
    (reportStatus v).trace = s.trace ++ (evs ++ [.status v.flags.valid v.flags.handled v.flags.cond]) := by
  rw [reportStatus_eq]; simp [h]

/-- The step that completes a valid frame, by the latched fields (40 R131, 44 R200). -/
theorem step_valid {s : State} {b : Byte} {rest : List Input} (hi : Inv s) (hr : Reads s b rest)
    (hp : s.rx.phase = .csum) (hv : verdict b s = true) :
    step s = andThen
      (exec (inboundInstr s.params s.rx.cmd (rxPayload s)) { s.taking rest with
        rx := { s.rx with phase := .hunt }, flags := { valid := true, handled := false, cond := .none } })
      reportStatus := by
  have ho : s.rx.overLen = false := by simp [verdict] at hv; exact hv.2
  have ha := hi.assembler
  simp only [AssemblerOk, hp] at ha
  have hl := ha.2.2.overLen
  rw [ho] at hl
  have hl : s.rx.len.toNat ≤ s.params.maxData := by simpa using hl.symm
  rw [step_reads hr, receiveByte_csum (by simpa using hp), csumByte]
  have e : latchVerdict b (s.taking rest) = { s.taking rest with
      rx := { s.rx with phase := .hunt }, flags := { valid := true, handled := false, cond := .none } } := by
    rw [latchVerdict, verdict_taking, hv]; simp
  simp only [e, if_true]
  rw [dispatch, if_pos (by simpa using hl)]
  simp [fetchInstr, rxPayload]

end Sys2Proof.Laws
end

