-- ==== Sys2Proof/Tests/Slice0.lean ====
section
/-! SUPPORT. Small tests, with results from the vectors of spec 95 or worked from its rules by hand, and for every statement
that has hypotheses a state and operands that meet them. -/

namespace Sys2Proof.Tests

open Sys2Proof.Machine Sys2Proof.Safety Sys2Proof.Laws

/-! ### WellFormed: an ill-formed term for each check -/

theorem test_wf_payload_too_long : wellFormed Params.ref (.datablock (List.replicate 256 0)) = false := by
  simp [wellFormed, payloadFits, Params.ref, -List.reduceReplicate]
theorem test_wf_payload_small_buffer :
    wellFormed { Params.ref with maxData := 6 } (.readreq [1, 2, 3, 4, 5, 6, 7]) = false := by decide
theorem test_wf_unknown_is_a_code : wellFormed Params.ref (.unknown 0x68 []) = false := by decide
theorem test_wf_unknown_is_ack : wellFormed Params.ref (.unknown 0x06 []) = false := by decide
theorem test_wf_request_too_long : wellFormed Params.ref (.txWritereq 0 (List.replicate 254 0)) = false := by
  simp [wellFormed, requestFits, Params.ref, -List.reduceReplicate]
theorem test_wf_longest_payload : wellFormed Params.ref (.datablock (List.replicate 255 0)) = true := by
  simp [wellFormed, payloadFits, Params.ref, -List.reduceReplicate]
theorem test_wf_longest_request : wellFormed Params.ref (.txWritereq 0 (List.replicate 253 0)) = true := by
  simp [wellFormed, requestFits, Params.ref, -List.reduceReplicate]

/-! ### Decode: words written out from 30 R90, R91, R93, R101 -/

theorem test_decode_datablock : decodeInbound Params.ref [0x5C, 0x00, 0x20, 0x68, 0x04, 0x00, 0x10, 0xAA, 0xBB, 0x6D] =
    .ok (.datablock [0x00, 0x10, 0xAA, 0xBB]) := rfl
theorem test_decode_readdata : decodeInbound Params.ref
    [0x5C, 0x00, 0x20, 0x6A, 0x08, 0x69, 0x02, 0xCE, 0xFF, 0xFF, 0xFF, 0x00, 0x00, 0x38] =
    .ok (.readdata [0x69, 0x02, 0xCE, 0xFF, 0xFF, 0xFF, 0x00, 0x00]) := rfl
theorem test_decode_readreq : decodeInbound Params.ref [0x5C, 0x00, 0x20, 0x69, 0x00, 0x69] = .ok (.readreq []) := rfl
theorem test_decode_writereq : decodeInbound Params.ref [0x5C, 0x00, 0x20, 0x6B, 0x00, 0x6B] = .ok (.writereq []) := rfl
theorem test_decode_ack : decodeInbound Params.ref [0x5C, 0x00, 0x20, 0x06, 0x00, 0x06] = .ok (.ack []) := rfl
theorem test_decode_nak : decodeInbound Params.ref [0x5C, 0x00, 0x20, 0x15, 0x00, 0x15] = .ok (.nak []) := rfl
theorem test_decode_unknown : decodeInbound Params.ref [0x5C, 0x00, 0x20, 0x6D, 0x03, 0x01, 0x02, 0x03, 0x6E] =
    .ok (.unknown 0x6D [0x01, 0x02, 0x03]) := rfl
theorem test_decode_txAck : decodeOutbound Params.ref [0x06] = .ok .txAck := rfl
theorem test_decode_txNak : decodeOutbound Params.ref [0x15] = .ok .txNak := rfl
/-- 95 S3. -/
theorem test_decode_txReadreq : decodeOutbound Params.ref [0xC0, 0x00, 0x20, 0x69, 0x02, 0x02, 0x69, 0x00] =
    .ok (.txReadreq 0x6902) := rfl
/-- 95 S4. -/
theorem test_decode_txWritereq : decodeOutbound Params.ref
    [0xC0, 0x00, 0x20, 0x6B, 0x06, 0x02, 0x69, 0xCE, 0xFF, 0x00, 0x00, 0x37] =
    .ok (.txWritereq 0x6902 [0xCE, 0xFF, 0x00, 0x00]) := rfl
/-- 95 VC6. -/
theorem test_decode_bad_checksum : decodeInbound Params.ref [0x5C, 0x00, 0x20, 0x69, 0x00, 0x68] = .error .checksumError := rfl
theorem test_decode_too_short : decodeInbound Params.ref [0x5C, 0x00, 0x20, 0x69, 0x00] = .error .tooShort := rfl
theorem test_decode_wrong_length : decodeInbound Params.ref [0x5C, 0x00, 0x20, 0x69, 0x01, 0x69] = .error .lengthMismatch := rfl
/-- A request of length 1 is no message of 30 R101. -/
theorem test_decode_short_request : decodeOutbound Params.ref [0xC0, 0x00, 0x20, 0x69, 0x01, 0x02, 0x6A] =
    .error .notOutboundRequest := rfl
theorem test_decode_foreign_header : decodeOutbound Params.ref [0xC1, 0x00, 0x20, 0x69, 0x02, 0x02, 0x69, 0x00] =
    .error .notOutboundHeader := rfl
theorem test_table_word_unknown : decodeTableWord 8 0x6D = some (.unknown 0x6D []) := rfl
/-- 95 VC3. -/
theorem test_checksum_longest : checksum 0x68 0xFF (List.replicate 255 0x00) = 0x97 := by decide +kernel

/-! ### One step each -/

/-- A block in HUNT whose start-up is over, with input and listed store answers. -/
def ready (input : List Input) (expired : List (Option Nat)) (elements : List (Option IoElement)) (sizes : List Nat) : State :=
  { State.reset with
    startPending := false
    input := input
    store := { expired := expired, elements := elements, sizes := sizes, calls := 0 } }

/-- A frame with the command and data latched, its checksum byte `c` next. -/
def latched (cmd : Byte) (data : List Byte) (c : Byte) (s : State) : State :=
  { s with
    rx := { s.rx with
      phase := .csum
      node := 0x5C
      cmd := cmd
      len := BitVec.ofNat 8 data.length
      cnt := BitVec.ofNat 8 data.length
      xor := checksum cmd (BitVec.ofNat 8 data.length) data
      buf := Memory.writeN [] 0 data }
    input := [.byte c] }

/-- No listed answers. -/
def bare : State := ready [] [] [] []

/-- The store element 3 of 95. -/
def element3 : IoElement := { identifier := 0x6902, value := [0xCE, 0xFF, 0x00, 0x00] }

/-- What a step has put out. -/
def out (o : Host.Outcome State Fault Refusal) : Option (List Event) :=
  match o with
  | .next s => some s.trace
  | .fault _ => none
  | .refused _ => none

/-- 95 S1. -/
theorem test_datablock_continuation :
    out (step (latched 0x68 [0x00, 0x10, 0xAA, 0xBB, 0xFF, 0xFF, 0xCC, 0xDD] 0x70 bare)) = some
      [.tx [0x06], .set 0x0010 [0xAA, 0xBB, 0xCC, 0xDD] 4, .fwdV 0x0010 [0xAA, 0xBB, 0xCC, 0xDD] 4, .status true true .none] := by
  decide
/-- 95 VD8: orphans in front. -/
theorem test_datablock_orphans :
    out (step (latched 0x68 [0xFF, 0xFF, 0x11, 0x22, 0xFF, 0xFF, 0x33, 0x44, 0x00, 0x10, 0x55, 0x66] 0x03 bare)) = some
      [.tx [0x06], .set 0x0010 [0x55, 0x66] 2, .fwdV 0x0010 [0x55, 0x66] 2, .status true true .none] := by
  decide
/-- 95 VD17. -/
theorem test_readdata_element :
    out (step (latched 0x6A [0x69, 0x02, 0xCE, 0xFF, 0xFF, 0xFF, 0x00, 0x00] 0x38 bare)) = some
      [.tx [0x06], .set 0x6902 [0xCE, 0xFF, 0x00, 0x00] 4, .fwdV 0x6902 [0xCE, 0xFF, 0x00, 0x00] 4, .status true true .none] := by
  decide
/-- 95 S3. -/
theorem test_readreq_frame :
    out (step (latched 0x69 [] 0x69 (ready [] [some 3] [some element3] []))) = some
      [.getExp .read (some 3), .getElem 3 (some element3), .fwdF [0xC0, 0x00, 0x20, 0x69, 0x02, 0x02, 0x69, 0x00],
        .tx [0xC0, 0x00, 0x20, 0x69, 0x02, 0x02, 0x69, 0x00], .status true true .none] := by
  decide
/-- 95 S6. -/
theorem test_readreq_nothing_pending :
    out (step (latched 0x69 [] 0x69 (ready [] [none] [] []))) = some
      [.getExp .read none, .tx [0x06], .status true true .noPending] := by
  decide
/-- 95 S4. -/
theorem test_writereq_frame :
    out (step (latched 0x6B [] 0x6B (ready [] [some 3] [some element3] [4]))) = some
      [.getExp .readWrite (some 3), .getElem 3 (some element3), .getSize 3 4,
        .fwdF [0xC0, 0x00, 0x20, 0x6B, 0x06, 0x02, 0x69, 0xCE, 0xFF, 0x00, 0x00, 0x37],
        .tx [0xC0, 0x00, 0x20, 0x6B, 0x06, 0x02, 0x69, 0xCE, 0xFF, 0x00, 0x00, 0x37], .status true true .none] := by
  decide
/-- 43 R190 at its boundary: MAX_DATA 6, size 5. -/
theorem test_writereq_too_long :
    out (step { latched 0x6B [] 0x6B (ready [] [some 6] [some { identifier := 1, value := [1, 2, 3, 4, 5] }] [5]) with
      params := { Params.ref with maxData := 6 } }) = some
      [.getExp .readWrite (some 6), .getElem 6 (some { identifier := 1, value := [1, 2, 3, 4, 5] }), .getSize 6 5,
        .tx [0x06], .status true true .reqTooLong] := by
  decide
theorem test_ack_frame : out (step (latched 0x06 [] 0x06 bare)) = some [.tx [0x06], .status true false .unknownCommand] := by
  decide
theorem test_nak_frame : out (step (latched 0x15 [] 0x15 bare)) = some [.tx [0x06], .status true false .unknownCommand] := by
  decide
/-- 95 S5. -/
theorem test_unknown_frame :
    out (step (latched 0x6D [0x01, 0x02, 0x03] 0x6E bare)) = some [.tx [0x06], .status true false .unknownCommand] := by
  decide
/-- 95 VK1: a wrong checksum hides the command. -/
theorem test_invalid_frame :
    out (step (latched 0x68 [0x00, 0x10, 0xAA, 0xBB] 0x6C bare)) = some [.tx [0x15], .status false false .checksum] := by
  decide
theorem test_txAck : out (exec .txAck bare) = some [.tx [0x06]] := by decide
theorem test_txNak : out (exec .txNak bare) = some [.tx [0x15]] := by decide
/-- 95 S3's reply. -/
theorem test_txReadreq : out (exec (.txReadreq 0x6902) bare) = some
    [.fwdF [0xC0, 0x00, 0x20, 0x69, 0x02, 0x02, 0x69, 0x00], .tx [0xC0, 0x00, 0x20, 0x69, 0x02, 0x02, 0x69, 0x00]] := by decide
/-- 95 S4's reply. -/
theorem test_txWritereq : out (exec (.txWritereq 0x6902 [0xCE, 0xFF, 0x00, 0x00]) bare) = some
    [.fwdF [0xC0, 0x00, 0x20, 0x6B, 0x06, 0x02, 0x69, 0xCE, 0xFF, 0x00, 0x00, 0x37],
      .tx [0xC0, 0x00, 0x20, 0x6B, 0x06, 0x02, 0x69, 0xCE, 0xFF, 0x00, 0x00, 0x37]] := by decide
/-- 95's start-up event (70 R253). -/
theorem test_start_up : out (step State.reset) = some [.setErr .analog16 0x5C5C] := by decide
/-- withFetchWord runs the table's word as the first instruction. -/
theorem test_fetch_word : out (step (State.reset.withFetchWord 8 0x6D)) = some
    [.tx [0x06], .status true false .unknownCommand] := by decide

/-! ### The invariant holds somewhere -/

theorem ref_ok : Params.ref.Ok := by decide

/-- A latched frame with any checksum byte meets the invariant. -/
theorem latched_inv (cmd c : Byte) {data : List Byte} (h : data.length ≤ 255)
    (expired : List (Option Nat)) (elements : List (Option IoElement)) (sizes : List Nat) :
    Inv (latched cmd data c (ready [] expired elements sizes)) where
  paramsOk := ref_ok
  rxBuf := ⟨Memory.wf_writeN _ _ Memory.wf_nil, Memory.bounded_writeN _ (by simp) (by show 0 + data.length ≤ 255; omega)⟩
  txBuf := ⟨Memory.wf_nil, by simp [latched, ready, State.reset, TxRegs.reset]⟩
  curVal := ⟨Memory.wf_nil, by simp [latched, ready, State.reset, DecRegs.reset]⟩
  idle := ⟨rfl, rfl, Nat.zero_le _⟩
  assembler := by
    refine ⟨rfl, rfl, ⟨?_, fun _ => ?_⟩⟩
    · show false = decide (255 < (BitVec.ofNat 8 data.length).toNat)
      rw [toNat_ofNat_of_le h]; simpa using h
    · show checksum cmd (BitVec.ofNat 8 data.length) data =
        checksum cmd (BitVec.ofNat 8 data.length) ((Memory.writeN [] 0 data).readN 0 (BitVec.ofNat 8 data.length).toNat)
      rw [toNat_ofNat_of_le h, Memory.readN_writeN Memory.wf_nil]
  events := by simp [latched, ready, State.reset]

/-- A block in HUNT meets it too. -/
theorem reset_inv : Inv State.reset where
  paramsOk := ref_ok
  rxBuf := ⟨Memory.wf_nil, by simp [State.reset, RxRegs.reset]⟩
  txBuf := ⟨Memory.wf_nil, by simp [State.reset, TxRegs.reset]⟩
  curVal := ⟨Memory.wf_nil, by simp [State.reset, DecRegs.reset]⟩
  idle := ⟨rfl, rfl, Nat.zero_le _⟩
  assembler := trivial
  events := by simp [State.reset]

/-! ### Witnesses: every hypothesis of every statement is met -/

/-- A block in the phase, about to read the byte. -/
def inPhase (phase : Phase) (b : Byte) : State :=
  { ready [.byte b] [] [] [] with rx := { RxRegs.reset with phase := phase, node := 0x5C, len := 2, cnt := 1 } }

/-- The frame of 95 VD3, latched. -/
def oneGroup : State := latched 0x68 [0x00, 0x10, 0xAA, 0xBB] 0x6D bare

/-- The same frame as READDATA. -/
def oneGroupRead : State := latched 0x6A [0x00, 0x10, 0xAA, 0xBB] 0x6F bare

theorem oneGroup_inv : Inv oneGroup := latched_inv _ _ (by decide) _ _ _

theorem witness_ClassifyMapsEachCode : Params.ref.Ok := ref_ok

theorem witness_ChecksumArithmeticLaws_a : ([1, 2] : List Byte).Perm [2, 1] := .swap 2 1 []
theorem witness_ChecksumArithmeticLaws_b : 7 < ([1, 2, 3, 4, 5, 6, 7, 8] : List Byte).length ∧ 7 < 8 := by decide
theorem witness_ChecksumArithmeticLaws_c :
    0 < ([1, 2] : List Byte).length ∧ 1 < ([1, 2] : List Byte).length ∧ 0 ≠ 1 := by decide

theorem witness_DecodeIsGatedByChecksum_match :
    ([0xAA] : List Byte).length = (1 : Byte).toNat ∧ checksum 0x68 1 [0xAA] = 0xC3 := by decide
theorem witness_DecodeIsGatedByChecksum_longest : (List.replicate 255 (0 : Byte)).length = (0xFF : Byte).toNat := by
  simp [-List.reduceReplicate]
theorem witness_DecodeIsGatedByChecksum_short : ([0x5C, 0x00, 0x20, 0x69, 0x00] : List Byte).length < 6 := by decide
theorem witness_DecodeIsGatedByChecksum_length :
    ([0x5C, 0x00, 0x20, 0x69, 0x01, 0x69] : List Byte).length ≠
      6 + (([0x5C, 0x00, 0x20, 0x69, 0x01, 0x69] : List Byte).getD 4 0).toNat := by decide

theorem witness_EncodeThenDecodeKeepsFields :
    Params.ref.Ok ∧ (List.replicate 255 (0 : Byte)).length ≤ Params.ref.maxData := ⟨ref_ok, by simp [Params.ref, -List.reduceReplicate]⟩

theorem witness_SingleBitErrorsAreCaught_command :
    decodeFrame [0x5C, 0x00, 0x20, 0x68, 0x04, 0x00, 0x10, 0xAA, 0xBB, 0x6D] =
      .ok { node := 0x5C, command := 0x68, length := 4, data := [0x00, 0x10, 0xAA, 0xBB], checksum := 0x6D } ∧
    7 < 8 ∧ (3 = 3 ∨ 5 ≤ 3 ∧ 3 ≤ 5 + (4 : Byte).toNat) := ⟨rfl, by decide, by decide⟩
theorem witness_SingleBitErrorsAreCaught_checksum :
    decodeFrame [0x5C, 0x00, 0x20, 0x68, 0x04, 0x00, 0x10, 0xAA, 0xBB, 0x6D] =
      .ok { node := 0x5C, command := 0x68, length := 4, data := [0x00, 0x10, 0xAA, 0xBB], checksum := 0x6D } ∧
    0 < 8 ∧ (9 = 3 ∨ 5 ≤ 9 ∧ 9 ≤ 5 + (4 : Byte).toNat) := ⟨rfl, by decide, by decide⟩

theorem witness_EveryInstructionDecodesFromItsBytes_inbound :
    Params.ref.Ok ∧ wellFormed Params.ref (.unknown 0x6D (List.replicate 255 0)) = true :=
  ⟨ref_ok, by simp [wellFormed, payloadFits, commandUnlisted, Params.commandCodes, Params.ref, -List.reduceReplicate]⟩
theorem witness_EveryInstructionDecodesFromItsBytes_outbound :
    Params.ref.Ok ∧ wellFormed Params.ref (.txWritereq 0x6902 (List.replicate 253 0)) = true :=
  ⟨ref_ok, by simp [wellFormed, requestFits, Params.ref, -List.reduceReplicate]⟩

theorem witness_RequestFramesAreLaidOut : 2 + (List.replicate 253 (0 : Byte)).length ≤ 255 := by simp [-List.reduceReplicate]

theorem witness_SynchronisationSteps_hunt : Reads (inPhase .hunt 0x5C) 0x5C [] ∧ (inPhase .hunt 0x5C).rx.phase = .hunt := by decide
theorem witness_SynchronisationSteps_pfx1 : Reads (inPhase .pfx1 0x5C) 0x5C [] ∧ (inPhase .pfx1 0x5C).rx.phase = .pfx1 := by decide
theorem witness_SynchronisationSteps_pfx2 : Reads (inPhase .pfx2 0x20) 0x20 [] ∧ (inPhase .pfx2 0x20).rx.phase = .pfx2 := by decide
theorem witness_CommandByteStep : Reads (inPhase .cmd 0x68) 0x68 [] ∧ (inPhase .cmd 0x68).rx.phase = .cmd := by decide
theorem witness_LengthAndDataSteps_len : Reads (inPhase .len 0x00) 0x00 [] ∧ (inPhase .len 0x00).rx.buf.wf ∧
    (inPhase .len 0x00).rx.phase = .len := by decide
theorem witness_LengthAndDataSteps_data : Reads (inPhase .data 0xAA) 0xAA [] ∧ (inPhase .data 0xAA).rx.buf.wf ∧
    (inPhase .data 0xAA).rx.phase = .data ∧ (inPhase .data 0xAA).rx.cnt + 1 = (inPhase .data 0xAA).rx.len := by decide

theorem witness_StepRunsDecodedInstruction : Inv oneGroup ∧ Reads oneGroup 0x6D [] ∧ oneGroup.rx.phase = .csum ∧
    oneGroup.rx.overLen = false ∧
    decodeInbound oneGroup.params (latchedFrame oneGroup 0x6D) = .ok (.datablock [0x00, 0x10, 0xAA, 0xBB]) :=
  ⟨oneGroup_inv, ⟨rfl, rfl⟩, rfl, rfl, rfl⟩

theorem witness_InvalidFrameGetsNakOnly_checksum :
    Reads (latched 0x68 [] 0x69 bare) 0x69 [] ∧ (latched 0x68 [] 0x69 bare).rx.phase = .csum ∧
    verdict 0x69 (latched 0x68 [] 0x69 bare) = false ∧ (latched 0x68 [] 0x69 bare).rx.overLen = false := by decide
theorem witness_InvalidFrameGetsNakOnly_overlength :
    Reads { inPhase .csum 0x00 with rx := { RxRegs.reset with phase := .csum, overLen := true } } 0x00 [] ∧
    verdict 0x00 { inPhase .csum 0x00 with rx := { RxRegs.reset with phase := .csum, overLen := true } } = false := by decide

theorem witness_IncompleteBytesAreSilent : ∃ t, step (inPhase .data 0xAA) = .next t ∧
    completing (inPhase .data 0xAA) = none ∧ (inPhase .data 0xAA).startPending = false := ⟨_, rfl, rfl, rfl⟩

theorem witness_AssemblerAgreesWithDecode :
    let s := ready (([0x5C, 0x00, 0x20, 0x68, 0x01] ++ [0xAA]).map Input.byte ++ .byte 0xC3 :: []) [] [] []
    s.params.Ok ∧ s.rx.buf.wf ∧ s.startPending = false ∧ s.rx.phase = .hunt ∧ ([0xAA] : List Byte).length = (1 : Byte).toNat ∧
    (s.params.prefixCheck = true → (0x00 : Byte) = s.params.prefix1 ∧ (0x20 : Byte) = s.params.prefix2) ∧
    s.input = ([s.params.nodeIdRx, 0x00, 0x20, 0x68, 0x01] ++ [0xAA]).map Input.byte ++ .byte 0xC3 :: [] := by decide

theorem witness_WireFrameRunsItsInstruction :
    let s := ready ((encode Params.ref (.nak [0xAA])).map Input.byte) [] [] []
    s.params.Ok ∧ s.rx.buf.wf ∧ s.startPending = false ∧ s.rx.phase = .hunt ∧
    (Instr.nak [0xAA]).direction = .inbound ∧ wellFormed s.params (.nak [0xAA]) = true ∧
    s.input = (encode s.params (.nak [0xAA])).map Input.byte ++ [] := by decide

/-- A step that completes a valid frame, from a state that meets the invariant: for OneReplyPerCompletedFrame,
EveryStepKeepsInvariant and HooksHaveNoOtherEffect. -/
theorem witness_OneReplyPerCompletedFrame_valid :
    Inv oneGroup ∧ (∃ t, step oneGroup = .next t) ∧ completing oneGroup = some 0x6D ∧ verdict 0x6D oneGroup = true :=
  ⟨oneGroup_inv, ⟨_, rfl⟩, rfl, rfl⟩
theorem witness_OneReplyPerCompletedFrame_invalid :
    Inv (latched 0x68 [] 0x69 bare) ∧ (∃ t, step (latched 0x68 [] 0x69 bare) = .next t) ∧
    completing (latched 0x68 [] 0x69 bare) = some 0x69 ∧ verdict 0x69 (latched 0x68 [] 0x69 bare) = false :=
  ⟨latched_inv _ _ (by decide) _ _ _, ⟨_, rfl⟩, rfl, rfl⟩
theorem witness_StatusIsLastAndOnce : (∃ t, step oneGroup = .next t) ∧ completing oneGroup = some 0x6D := ⟨⟨_, rfl⟩, rfl⟩
theorem witness_FlagsOfCompletedFrame_data :
    (∃ t, step oneGroup = .next t) ∧ completing oneGroup = some 0x6D ∧ completingValid oneGroup = some .datablock :=
  ⟨⟨_, rfl⟩, rfl, rfl⟩
theorem witness_FlagsOfCompletedFrame_unknown :
    (∃ t, step (latched 0x6D [] 0x6D bare) = .next t) ∧ completingValid (latched 0x6D [] 0x6D bare) = some .unknown :=
  ⟨⟨_, rfl⟩, rfl⟩
theorem witness_ExpiredIsAskedOncePerRequestFrame :
    (∃ t, step (latched 0x69 [] 0x69 (ready [] [none] [] [])) = .next t) ∧
    completingValid (latched 0x69 [] 0x69 (ready [] [none] [] [])) = some .readreq := ⟨⟨_, rfl⟩, rfl⟩
theorem witness_OnlyDataFramesWriteTheStore :
    (∃ t, step (latched 0x15 [] 0x15 bare) = .next t) ∧ completingValid (latched 0x15 [] 0x15 bare) ≠ some .datablock ∧
    completingValid (latched 0x15 [] 0x15 bare) ≠ some .readdata := ⟨⟨_, rfl⟩, by decide, by decide⟩
theorem witness_ParametersAreFixedAndTraceGrows : ∃ t, step State.reset = .next t := ⟨_, rfl⟩

theorem witness_DataFramesStoreTheirElements : bare.params.Ok ∧ bare.dec.val.wf := by decide
theorem witness_DataFramesAreAcknowledgedFirst_datablock :
    Inv oneGroup ∧ Reads oneGroup 0x6D [] ∧ completingValid oneGroup = some .datablock := ⟨oneGroup_inv, ⟨rfl, rfl⟩, rfl⟩
theorem witness_DataFramesAreAcknowledgedFirst_readdata :
    Inv oneGroupRead ∧ Reads oneGroupRead 0x6F [] ∧ completingValid oneGroupRead = some .readdata :=
  ⟨latched_inv _ _ (by decide) _ _ _, ⟨rfl, rfl⟩, rfl⟩
theorem witness_ValueBytesAppendIfRoom_room :
    bare.dec.val.wf ∧ bare.dec.size < bare.params.maxValueSize - 1 ∧ bare.params.maxValueSize = 4 ∧ bare.dec.size % 2 = 0 := by
  decide
theorem witness_ValueBytesAppendIfRoom_full :
    let s := { bare with dec := { bare.dec with size := 4 } }
    s.dec.val.wf ∧ ¬ s.dec.size < s.params.maxValueSize - 1 ∧ s.dec.size ≤ 4 := by decide
theorem witness_ValueBytesAppendIfRoom_real :
    let s := { bare with dec := { bare.dec with size := 4, addrValid := true, addr := 0x0010 } }
    s.dec.val.wf ∧ (0x0020 : Addr) ≠ 0xFFFF ∧ 2 ≤ s.params.maxValueSize := by decide
theorem witness_DecodedElementsAreWellFormed :
    bare.params.Ok ∧ bare.dec.val.wf ∧ bare.params.maxValueSize = 4 ∧
    Event.set 0x0010 [0xAA, 0xBB] 2 ∈ (decodeElements [0x00, 0x10, 0xAA, 0xBB] bare).trace := by decide
theorem witness_OrphanContinuationsAreIgnored : bare.params.Ok ∧ bare.dec.val.wf ∧
    (∃ t, exec (.datablock (0xFF :: 0xFF :: 0xAA :: 0xBB :: [0x00, 0x10, 0xCC, 0xDD])) bare = .next t) ∧
    ∃ u, exec (.datablock [0x00, 0x10, 0xCC, 0xDD]) bare = .next u := ⟨by decide, by decide, ⟨_, rfl⟩, ⟨_, rfl⟩⟩

theorem witness_ReadreqAnswersByStore_none : expiredAnswer .read (ready [] [none] [] []) = none := rfl
theorem witness_ReadreqAnswersByStore_missing : expiredAnswer .read (ready [] [some 3] [none] []) = some 3 ∧
    elementAnswer 3 (callExpired .read (ready [] [some 3] [none] [])) = none := ⟨rfl, rfl⟩
theorem witness_ReadreqAnswersByStore_frame : expiredAnswer .read (ready [] [some 3] [some element3] []) = some 3 ∧
    elementAnswer 3 (callExpired .read (ready [] [some 3] [some element3] [])) = some element3 ∧
    (ready [] [some 3] [some element3] []).tx.buf.wf := ⟨rfl, rfl, by decide⟩
theorem witness_WritereqAnswersByStore_none : expiredAnswer .readWrite (ready [] [none] [] []) = none := rfl
theorem witness_WritereqAnswersByStore_missing : expiredAnswer .readWrite (ready [] [some 3] [none] []) = some 3 ∧
    elementAnswer 3 (callExpired .readWrite (ready [] [some 3] [none] [])) = none := ⟨rfl, rfl⟩
/-- The boundary of 43 R190: 253 value bytes fit, 254 do not. -/
theorem witness_WritereqAnswersByStore_frame :
    let e : IoElement := { identifier := 0x6902, value := List.replicate 253 0 }
    let s := ready [] [some 3] [some e] [253]
    expiredAnswer .readWrite s = some 3 ∧ elementAnswer 3 (callExpired .readWrite s) = some e ∧
    2 + sizeAnswer 3 (callElement 3 (callExpired .readWrite s)) ≤ s.params.maxData ∧
    sizeAnswer 3 (callElement 3 (callExpired .readWrite s)) ≤ e.value.length ∧ s.params.maxData ≤ 255 ∧ s.tx.buf.wf :=
  ⟨rfl, rfl, by decide, by rw [List.length_replicate]; decide, by decide, by decide⟩
theorem witness_WritereqAnswersByStore_tooLong :
    let e : IoElement := { identifier := 0x6902, value := [] }
    let s := ready [] [some 3] [some e] [254]
    expiredAnswer .readWrite s = some 3 ∧ elementAnswer 3 (callExpired .readWrite s) = some e ∧
    s.params.maxData < 2 + sizeAnswer 3 (callElement 3 (callExpired .readWrite s)) := ⟨rfl, rfl, by decide⟩
theorem witness_BrokenStoreContractIsRefused :
    let s := ready [] [some 3] [some element3] [5]
    acquired .readWrite s = .entry 3 element3 ∧ 2 + sizeAnswer 3 (acquire .readWrite s) ≤ s.params.maxData ∧
    element3.value.length < sizeAnswer 3 (acquire .readWrite s) := ⟨rfl, by decide, by decide⟩
theorem witness_ReadRequestMessageBytes : bare.tx.buf.wf := by decide
theorem witness_WriteRequestMessageBytes : bare.tx.buf.wf ∧ bare.params.maxData ≤ 255 ∧
    2 + (List.replicate 253 (0 : Byte)).length ≤ bare.params.maxData :=
  ⟨by decide, by decide, by simp [bare, ready, State.reset, Params.ref, -List.reduceReplicate]⟩
theorem witness_TooLongRequestFallsBackToAck : bare.params.maxData < 2 + (List.replicate 254 (0 : Byte)).length := by
  simp [bare, ready, State.reset, Params.ref, -List.reduceReplicate]

theorem witness_StartUpRegistersSentinels : State.reset.startPending = true := rfl
theorem witness_ResetInputGivesHunt : (ready [.reset] [] [] []).startPending = false ∧
    (ready [.reset] [] [] []).input = .reset :: [] := by decide
theorem witness_NoInputChangesNothing : bare.startPending = false ∧ bare.input = [] := by decide
theorem witness_EveryStepKeepsInvariant : Inv oneGroup ∧ ∃ t, step oneGroup = .next t := ⟨oneGroup_inv, _, rfl⟩
theorem witness_NothingStopsTheBlock_refuses :
    let s := latched 0x6B [] 0x6B (ready [] [some 3] [some element3] [5])
    Inv s ∧ step s = .refused (.storeContract 3 5 4) := ⟨latched_inv _ _ (by decide) _ _ _, rfl⟩
theorem witness_NothingStopsTheBlock_runs :
    let s := latched 0x6B [] 0x6B (ready [] [some 3] [some element3] [4])
    Inv s ∧ StoreContract s :=
  ⟨latched_inv _ _ (by decide) _ _ _, fun index element h => by
    cases (show Acquired.entry 3 element3 = .entry index element from h); decide⟩

/-- Two blocks that differ in every register that HUNT leaves unspecified. -/
theorem witness_UnspecifiedRegistersNeverShow : Alike
    { ready [.byte 0x5C] [] [] [] with
      rx := { RxRegs.reset with node := 1, cmd := 2, len := 3, cnt := 4, xor := 5, overLen := true, buf := [(0, 6)] }
      dec := { addr := 7, addrValid := true, val := [(1, 8)], size := 2, pos := 9 }
      tx := { node := 10, cmd := 11, len := 12, buf := [(2, 13)] }
      flags := { valid := true, handled := true, cond := .overlength } }
    (ready [.byte 0x5C] [] [] []) :=
  ⟨⟨rfl, rfl, rfl, rfl, rfl, rfl⟩, ⟨rfl, trivial⟩, ⟨by decide, by decide, by decide⟩, ⟨by decide, by decide, by decide⟩⟩
theorem witness_HooksHaveNoOtherEffect : (∃ t, step oneGroup = .next t) ∧ oneGroup.params.forwardHook = true := ⟨⟨_, rfl⟩, rfl⟩

end Sys2Proof.Tests
end

