-- ==== Sys2Proof/Proofs/ByteOrder.lean ====
section
/-! PROOFS. The two 16-bit fields as numbers: what assembling an address and splitting an identifier compute, and O2. -/

namespace Sys2Proof

theorem toNat_addrOfBytes (hi lo : Byte) : (addrOfBytes hi lo).toNat = hi.toNat * 256 + lo.toNat := by
  rw [addrOfBytes, BitVec.toNat_append, ← Nat.shiftLeft_add_eq_or_of_lt lo.isLt, Nat.shiftLeft_eq]

/-- As numbers: two digits in base 256 make 65535 only when both are 255. -/
theorem addrOfBytes_eq_sentinelAddr_iff (hi lo : Byte) :
    addrOfBytes hi lo = Config.sentinelAddr ↔ hi = 0xFF ∧ lo = 0xFF := by
  have hhi : hi.toNat < 256 := hi.isLt
  have hlo : lo.toNat < 256 := lo.isLt
  have hsentinel : Config.sentinelAddr.toNat = 65535 := rfl
  have hFF : (0xFF : Byte).toNat = 255 := rfl
  simp only [← BitVec.toNat_inj, toNat_addrOfBytes, hsentinel, hFF]
  omega

theorem toNat_identLow (ident : Addr) : (identLow ident).toNat = ident.toNat % 256 := by
  simp [identLow]

theorem toNat_identHigh (ident : Addr) : (identHigh ident).toNat = ident.toNat / 256 := by
  have hident : ident.toNat < 65536 := ident.isLt
  rw [identHigh, BitVec.extractLsb'_toNat, Nat.shiftRight_eq_div_pow]
  omega

/-- Settles O2: the address is the number its two bytes spell in base 256, and the identifier's two bytes are its remainder
and its quotient by 256. -/
theorem fieldByteOrders : Obligations.FieldByteOrders := by
  unfold Obligations.FieldByteOrders
  constructor
  · intro hi lo
    exact ⟨toNat_addrOfBytes hi lo, addrOfBytes_eq_sentinelAddr_iff hi lo⟩
  · intro ident value
    exact ⟨identLow ident, identHigh ident, rfl, toNat_identLow ident, toNat_identHigh ident⟩

end Sys2Proof
end

