-- ==== Sys2Proof/Proofs/Checksum.lean ====
section
/-! PROOFS. The checksum of 40 R120 as a running exclusive-or, O3. -/

namespace Sys2Proof

/-- The recursion of `xor8` in 40 R120, which takes its bytes from the right where the fold takes them from the left. -/
theorem xor8_append_singleton (bytes : List Byte) (b : Byte) : xor8 (bytes ++ [b]) = xor8 bytes ^^^ b := by
  have single : xor8 [b] = b := by simp
  rw [xor8_append, single]

/-- The corner case of 40 R120: a frame of length 0 has its command byte as checksum. -/
theorem checksum_zero_nil (cmd : Byte) : checksum cmd 0x00 [] = cmd :=
  (checksum_nil cmd 0x00).trans BitVec.xor_zero

/-- Settles O3: the laws of `xor8` under append give the recursion, and the fold over no data leaves command and length. -/
theorem checksumIsRunningXor : Obligations.ChecksumIsRunningXor := by
  unfold Obligations.ChecksumIsRunningXor
  have covers : ∀ (cmd len : Byte) (data : List Byte), checksum cmd len data = xor8 ([cmd, len] ++ data) :=
    fun _ _ _ => rfl
  have workedExample : checksum 0x68 0x08 [0x00, 0x10, 0xAA, 0xBB, 0xFF, 0xFF, 0xCC, 0xDD] = 0x70 := by decide
  exact ⟨xor8_nil, xor8_append_singleton, covers, checksum_zero_nil, workedExample⟩

end Sys2Proof
end

