-- ==== Sys2Proof/Proofs/CommandByte.lean ====
section
/-! PROOFS. The receive assembler's step in phase CMD, O12. -/

namespace Sys2Proof

open Sys2Proof.Machine Sys2Proof.Laws

/-- In phase CMD a byte goes to `cmdByte`, whatever its value (40 R128). -/
theorem receiveByte_cmd {s : State} (h : s.rx.phase = .cmd) (b : Byte) : receiveByte b s = .next (cmdByte b s) := by
  rw [receiveByte, h]

/-- Settles O12: taking the byte off the input leaves the frame registers alone, so the step is `cmdByte` on them. -/
theorem commandByteStep : Obligations.CommandByteStep := by
  unfold Obligations.CommandByteStep
  intro s b rest hreads hphase
  have hcmd : (s.taking rest).rx.phase = .cmd := by rw [taking_rx, hphase]
  rw [step_reads hreads, receiveByte_cmd hcmd, cmdByte, taking_rx]

end Sys2Proof
end

