-- ==== Sys2Proof/Proofs/Acknowledger.lean ====
section
/-! PROOFS. The Acknowledger (41): which steps are silent and which put out one reply, and the two control bytes; O16, O19
and O38. -/

namespace Sys2Proof

open Sys2Proof.Machine Sys2Proof.Safety Sys2Proof.Laws

/-! ### Replies among events -/

@[simp] theorem repliesOf_append (as bs : List Event) : repliesOf (as ++ bs) = repliesOf as ++ repliesOf bs :=
  List.filterMap_append

@[simp] theorem repliesOf_tx_cons (bytes : List Byte) (evs : List Event) :
    repliesOf (.tx bytes :: evs) = bytes :: repliesOf evs := rfl

theorem repliesOf_eq_nil {evs : List Event} (h : ∀ e ∈ evs, reply? e = none) : repliesOf evs = [] :=
  List.filterMap_eq_nil_iff.mpr h

theorem reply?_of_isElementEvent {e : Event} (h : isElementEvent e = true) : reply? e = none := by
  cases e with
  | tx bytes => cases h
  | _ => rfl

theorem reply?_of_isAsk {e : Event} (h : isAsk e = true) : reply? e = none := by
  cases e with
  | tx bytes => cases h
  | _ => rfl

/-- Of a request's forward call and its transmit only the transmit is a reply (43 R194). -/
theorem repliesOf_requestEvents (p : Params) (bytes : List Byte) : repliesOf (requestEvents p bytes) = [bytes] := by
  unfold requestEvents
  split <;> rfl

/-- The start-up registration sends no reply (70 R253). -/
theorem repliesOf_setErrs (entries : List (SentinelType × Nat)) :
    repliesOf (entries.map fun entry => Event.setErr entry.1 entry.2) = [] :=
  repliesOf_eq_nil fun _ he => by
    obtain ⟨entry, _, rfl⟩ := List.mem_map.mp he
    rfl

/-! ### One reply -/

/-- `v` has put out what `s` has, then events with exactly one reply among them, `bytes`. -/
def Replied (s v : State) (bytes : List Byte) : Prop :=
  ∃ evs, v.trace = s.trace ++ evs ∧ repliesOf evs = [bytes]

/-- What 41 R155 allows as the reply to a valid frame: ACK, or a request frame of the block. -/
def ValidReply (p : Params) (bytes : List Byte) : Prop :=
  bytes = [Config.ackByte] ∨ ∃ f, decodeFrame bytes = .ok f ∧ f.node = p.nodeIdTx

/-- Events without a reply, put out before, leave the one reply as it is. -/
theorem Replied.after_silent {s u v : State} {evs : List Event} {bytes : List Byte} (h : Replied u v bytes)
    (htrace : u.trace = s.trace ++ evs) (hsilent : repliesOf evs = []) : Replied s v bytes := by
  obtain ⟨evs', htrace', hreplies⟩ := h
  refine ⟨evs ++ evs', by rw [htrace', htrace, List.append_assoc], ?_⟩
  rw [repliesOf_append, hsilent, List.nil_append, hreplies]

/-- The status report is no reply (44 R213). -/
theorem Replied.reportStatus {s v : State} {bytes : List Byte} (h : Replied s v bytes) :
    Replied s (reportStatus v) bytes := by
  obtain ⟨evs, htrace, hreplies⟩ := h
  refine ⟨_, reportStatus_trace htrace, ?_⟩
  rw [repliesOf_append, hreplies]
  rfl

theorem replied_sendNak (s : State) : Replied s (sendNak s) [Config.nakByte] := ⟨_, rfl, rfl⟩

/-- A request that is staged and sent is one reply, its frame (43 R194). -/
theorem replied_sendStaged_stageRequest {s : State} (hbuf : s.tx.buf.wf) (cmd : Byte) {data : List Byte}
    (h : data.length ≤ 255) :
    Replied s (sendStaged (stageRequest cmd data s)) (requestFrame s.params cmd data) := by
  rw [sendStaged_stageRequest hbuf cmd h]
  exact ⟨_, rfl, repliesOf_requestEvents _ _⟩

/-- DATABLOCK and READDATA reply by their early ACK only: the decoder sends nothing (41 R152). -/
theorem replied_handleData (payload : List Byte) (s : State) : Replied s (handleData payload s) [Config.ackByte] := by
  obtain ⟨d, evs, heq, hevs⟩ := handleData_frame payload s
  refine ⟨_, by rw [heq], ?_⟩
  rw [repliesOf_tx_cons, repliesOf_eq_nil fun e he => reply?_of_isElementEvent (hevs e he)]

/-- ACK, NAK and UNKNOWN reply by ACK (41 R154). -/
theorem replied_handleUnhandled (cmd : Byte) (s : State) : Replied s (handleUnhandled cmd s) [Config.ackByte] :=
  ⟨_, by rw [handleUnhandled_eq], rfl⟩

/-- READREQ and WRITEREQ reply once, after the store calls: by ACK, or by a request frame that decodes because its data
fits the length byte (41 R153). -/
theorem replied_of_answered {kind : StoreKind} {cmd : Byte} {s v : State} (h : Answered kind cmd s v)
    (hbuf : s.tx.buf.wf) (hmax : s.params.maxData ≤ 255) :
    ∃ bytes, Replied s v bytes ∧ ValidReply s.params bytes := by
  obtain ⟨st, asks, hasks, _, hend⟩ := h
  have hsilent : repliesOf asks = [] := repliesOf_eq_nil fun e he => reply?_of_isAsk (hasks e he)
  rcases hend with ⟨c, _, rfl⟩ | ⟨ident, value, hread, hwrite, rfl⟩
  · refine ⟨_, ⟨asks ++ [.tx [Config.ackByte]], List.append_assoc .., ?_⟩, .inl rfl⟩
    rw [repliesOf_append, hsilent]
    rfl
  · have hfit : (requestData ident value).length ≤ 255 := by
      rw [length_requestData]
      cases kind with
      | read => simp [hread rfl]
      | readWrite => exact (hwrite rfl).trans hmax
    have hsent := replied_sendStaged_stageRequest (s := { s with store := st, trace := s.trace ++ asks }) hbuf cmd hfit
    exact ⟨_, hsent.after_silent rfl hsilent, .inr ⟨_, decodeFrame_encodeFrame _ _ _ hfit, rfl⟩⟩

/-- The reply to a valid frame, by the shapes of its instruction (44 R200, 41 R152 to R154). -/
theorem replied_of_exec_fetchInstr {s v : State} (h : exec (fetchInstr s) s = .next v)
    (hbuf : s.tx.buf.wf) (hmax : s.params.maxData ≤ 255) :
    ∃ bytes, Replied s v bytes ∧ ValidReply s.params bytes := by
  rcases exec_fetchInstr h with ⟨_, rfl⟩ | ⟨_, rfl⟩ | ⟨_, hwrite⟩ | ⟨_, c, rfl⟩
  · exact ⟨_, replied_handleData _ s, .inl rfl⟩
  · exact replied_of_answered (s := setHandled true s) (answered_read _) hbuf hmax
  · exact replied_of_answered (s := setHandled true s) (answered_write hwrite) hbuf hmax
  · exact ⟨_, replied_handleUnhandled c s, .inl rfl⟩

/-- Completing a frame replies once: as its instruction does if it is valid, by NAK if it is not (40 R131, 41 R151). -/
theorem replied_of_csumByte {b : Byte} {s t : State} (h : csumByte b s = .next t)
    (hbuf : s.tx.buf.wf) (hmax : s.params.maxData ≤ 255) :
    ∃ bytes, Replied s t bytes ∧ if verdict b s then ValidReply s.params bytes else bytes = [Config.nakByte] := by
  rcases csumByte_next h with ⟨hv, _, v, hexec, rfl⟩ | ⟨hv, rfl⟩
  · obtain ⟨bytes, hreplied, hvalid⟩ := replied_of_exec_fetchInstr hexec hbuf hmax
    have hreplied : Replied s v bytes := hreplied
    exact ⟨bytes, hreplied.reportStatus, by rw [if_pos hv]; exact hvalid⟩
  · have hreplied : Replied s (sendNak (raise (invalidCondition b (latchVerdict b s)) (latchVerdict b s)))
        [Config.nakByte] := replied_sendNak _
    exact ⟨_, hreplied.reportStatus, by simp [hv]⟩

/-! ### The step, by whether it completes a frame -/

/-- A step that completes a frame reads its checksum byte in phase CSUM. -/
theorem reads_of_completing {s : State} {b : Byte} (h : completing s = some b) :
    s.rx.phase = .csum ∧ ∃ rest, Reads s b rest := by
  unfold completing at h
  split at h
  · rename_i hpending hphase hinput
    cases h
    exact ⟨hphase, _, hpending, hinput⟩
  · cases h

/-- A step that completes a frame is the frame completion (40 R131). -/
theorem csumByte_of_completing {s t : State} {b : Byte} (h : step s = .next t) (hc : completing s = some b) :
    ∃ rest, csumByte b (s.taking rest) = .next t := by
  obtain ⟨hphase, rest, hreads⟩ := reads_of_completing hc
  refine ⟨rest, ?_⟩
  rwa [step_reads hreads, receiveByte_csum (by rw [taking_rx, hphase])] at h

/-- A step that completes no frame is the start-up, or it leaves trace and store port as they are: resting, `reset`, or a
byte that changes the frame registers only (41 R157). -/
theorem step_of_completing_none {s t : State} (h : step s = .next t) (hc : completing s = none) :
    (s.startPending = true ∧ t = startUp s) ∨ (t.trace = s.trace ∧ t.store = s.store) := by
  rcases step_cases h with ⟨hpending, rfl⟩ | ⟨_, _, rfl⟩ | ⟨_, rest, _, rfl⟩ | ⟨b, rest, _, _, r, rfl, _⟩ |
    ⟨b, rest, hreads, hphase, _⟩
  · exact .inl ⟨hpending, rfl⟩
  · exact .inr ⟨rfl, rfl⟩
  · exact .inr ⟨by simp, by simp⟩
  · exact .inr ⟨by simp, by simp⟩
  · rw [completing_reads hreads hphase] at hc
    cases hc

/-- A step that completes no frame sends no reply: the start-up's events are none (41 R157). -/
theorem no_reply_of_completing_none {s t : State} (h : step s = .next t) (hc : completing s = none) :
    ∃ evs, t.trace = s.trace ++ evs ∧ repliesOf evs = [] := by
  rcases step_of_completing_none h hc with ⟨_, rfl⟩ | ⟨htrace, _⟩
  · exact ⟨_, by rw [startUp_eq], repliesOf_setErrs _⟩
  · exact ⟨[], by rw [htrace, List.append_nil], rfl⟩

/-! ### The obligations -/

/-- Settles O19: a step that completes no frame sends no reply, and one that does is the frame completion, taken from a
state with the parameters, trace and staging buffer of `s`. -/
theorem oneReplyPerCompletedFrame : Obligations.OneReplyPerCompletedFrame := by
  unfold Obligations.OneReplyPerCompletedFrame
  intro s t hinv hstep
  cases hc : completing s with
  | none => exact no_reply_of_completing_none hstep hc
  | some b =>
    obtain ⟨rest, hcsum⟩ := csumByte_of_completing hstep hc
    have hbuf : (s.taking rest).tx.buf.wf := by rw [taking_tx]; exact hinv.txBuf.canonical
    have hmax : (s.taking rest).params.maxData ≤ 255 := by
      obtain ⟨_, _, hmax, _⟩ := hinv.paramsOk
      rwa [taking_params]
    obtain ⟨bytes, ⟨evs, htrace, hreplies⟩, hreply⟩ := replied_of_csumByte hcsum hbuf hmax
    rw [taking_trace] at htrace
    rw [verdict_taking, taking_params] at hreply
    exact ⟨evs, htrace, bytes, hreplies, hreply⟩

/-- Settles O16: of the steps that complete no frame only the start-up, excluded here, changes trace or store port. -/
theorem incompleteBytesAreSilent : Obligations.IncompleteBytesAreSilent := by
  unfold Obligations.IncompleteBytesAreSilent
  intro s t hstep hc hpending
  rcases step_of_completing_none hstep hc with ⟨hstart, _⟩ | hsilent
  · rw [hpending] at hstart
    cases hstart
  · exact hsilent

/-- Settles O38: each of the two instructions is its send, whose one effect is the transmit event. -/
theorem controlBytesAreOneTransmit : Obligations.ControlBytesAreOneTransmit := by
  unfold Obligations.ControlBytesAreOneTransmit
  intro s
  have hack : exec .txAck s = .next (sendAck s) := rfl
  have hnak : exec .txNak s = .next (sendNak s) := rfl
  exact ⟨by rw [hack, sendAck_eq], by rw [hnak, sendNak_eq]⟩

end Sys2Proof
end

