-- ==== Sys2Proof/Proofs/ValueAppend.lean ====
section
/-! PROOFS. The append of a group's two value bytes in the Data-Block Decoder (42 R170) and the room for it, O27. -/

namespace Sys2Proof

open Sys2Proof.Machine Sys2Proof.Laws

/-! ### The append -/

theorem appendValue_of_room {s : State} (h : s.dec.size < s.params.maxValueSize - 1) (v0 v1 : Byte) :
    appendValue v0 v1 s = { s with dec := { s.dec with
      val := (s.dec.val.write s.dec.size v0).write (s.dec.size + 1) v1
      size := s.dec.size + 2 } } :=
  if_pos h

theorem appendValue_of_full {s : State} (h : ¬ s.dec.size < s.params.maxValueSize - 1) (v0 v1 : Byte) :
    appendValue v0 v1 s = s :=
  if_neg h

/-- With room, the accumulated value grows by the group's two bytes, in wire order. -/
theorem curValue_appendValue_of_room {s : State} (hval : s.dec.val.wf)
    (h : s.dec.size < s.params.maxValueSize - 1) (v0 v1 : Byte) :
    curValue (appendValue v0 v1 s) = curValue s ++ [v0, v1] := by
  have first := Memory.readN_write_succ hval 0 s.dec.size v0
  have second := Memory.readN_write_succ (Memory.wf_write s.dec.size v0 hval) 0 (s.dec.size + 1) v1
  rw [Nat.zero_add] at first second
  rw [appendValue_of_room h, curValue, second, first, List.append_assoc]
  rfl

/-- The append writes `cur_val` at `cur_size` and `cur_size + 1` only. -/
theorem read_appendValue_of_ne {s : State} (hval : s.dec.val.wf) {a : Nat} (h0 : a ≠ s.dec.size)
    (h1 : a ≠ s.dec.size + 1) (v0 v1 : Byte) : (appendValue v0 v1 s).dec.val.read a = s.dec.val.read a := by
  by_cases h : s.dec.size < s.params.maxValueSize - 1
  · rw [appendValue_of_room h, Memory.read_write (Memory.wf_write _ v0 hval), if_neg h1,
      Memory.read_write hval, if_neg h0]
  · rw [appendValue_of_full h]

/-- The append changes `cur_val` and `cur_size` only. -/
theorem appendValue_frame (v0 v1 : Byte) (s : State) :
    appendValue v0 v1 s = { s with dec := { s.dec with
      val := (appendValue v0 v1 s).dec.val, size := (appendValue v0 v1 s).dec.size } } := by
  by_cases h : s.dec.size < s.params.maxValueSize - 1
  · rw [appendValue_of_room h]
  · rw [appendValue_of_full h]

/-! ### The room for it -/

theorem flushNonempty_size (s : State) : (flushNonempty s).dec.size = 0 := by
  unfold flushNonempty
  split
  · exact flush_size s
  · rename_i hempty
    exact not_not.mp hempty

theorem params_of_decoderOnly {s t : State} (h : DecoderOnly s t) : t.params = s.params := by
  obtain ⟨_, _, rfl, _⟩ := h
  rfl

/-- A real address leaves an empty accumulator behind: what was accumulated is flushed (42 R168, R169). -/
theorem takeAddress_flushOnAddress_size {a : Addr} (ha : a ≠ Config.sentinelAddr) (s : State) :
    (takeAddress a (flushOnAddress a s)).dec.size = 0 := by
  rw [takeAddress, if_pos ha, flushOnAddress, if_pos ha]
  exact flushNonempty_size s

/-- An empty accumulator has room in every value buffer of at least 2 bytes. -/
theorem room_after_real_address {a : Addr} (ha : a ≠ Config.sentinelAddr) {s : State}
    (hmax : 2 ≤ s.params.maxValueSize) :
    (takeAddress a (flushOnAddress a s)).dec.size < (takeAddress a (flushOnAddress a s)).params.maxValueSize - 1 := by
  have hparams : (takeAddress a (flushOnAddress a s)).params = s.params :=
    params_of_decoderOnly ((decoderOnly_flushOnAddress a s).trans (decoderOnly_takeAddress a _))
  rw [takeAddress_flushOnAddress_size ha, hparams]
  omega

/-- Settles O27: the append by whether there is room, its frame, and the room that a flush leaves. -/
theorem valueBytesAppendIfRoom : Obligations.ValueBytesAppendIfRoom := by
  unfold Obligations.ValueBytesAppendIfRoom
  intro s v0 v1 hval
  refine ⟨fun h => ?room, fun h => appendValue_of_full h v0 v1, fun hmax heven hle => ?fourBytes,
    fun a ha hmax => room_after_real_address ha hmax, appendValue_frame v0 v1 s⟩
  case room =>
    have hsize : (appendValue v0 v1 s).dec.size = s.dec.size + 2 := by rw [appendValue_of_room h]
    exact ⟨hsize, curValue_appendValue_of_room hval h v0 v1,
      fun a h0 h1 => read_appendValue_of_ne hval h0 h1 v0 v1⟩
  case fourBytes =>
    rw [hmax]
    omega

end Sys2Proof
end

