-- ==== Sys2Proof/Proofs/Codec.lean ====
section
/-! PROOFS. The pure codec (30 R93 to R101, 40 R121 to R124): the command map, the checksum's arithmetic, and decode against
encode; O1 and O4 to O10. -/

namespace Sys2Proof

/-! ### The command map (30 R93) -/

/-- The six codes are pairwise distinct (00 R10), so each fails every test of the map before its own. -/
theorem classify_of_code {p : Params} (h : p.commandCodes.Nodup) :
    classify p p.cmdDatablock = .datablock ∧ classify p p.cmdReaddata = .readdata ∧
    classify p p.cmdReadreq = .readreq ∧ classify p p.cmdWritereq = .writereq ∧
    classify p Config.ackByte = .ack ∧ classify p Config.nakByte = .nak := by
  simp only [Params.commandCodes, List.nodup_cons, List.mem_cons, List.not_mem_nil, or_false, not_or] at h
  obtain ⟨⟨h12, h13, h14, h15, h16⟩, ⟨h23, h24, h25, h26⟩, ⟨h34, h35, h36⟩, ⟨h45, h46⟩, h56, _⟩ := h
  refine ⟨if_pos rfl, ?_, ?_, ?_, ?_, ?_⟩
  · rw [classify, if_neg (Ne.symm h12), if_pos rfl]
  · rw [classify, if_neg (Ne.symm h13), if_neg (Ne.symm h23), if_pos rfl]
  · rw [classify, if_neg (Ne.symm h14), if_neg (Ne.symm h24), if_neg (Ne.symm h34), if_pos rfl]
  · rw [classify, if_neg (Ne.symm h15), if_neg (Ne.symm h25), if_neg (Ne.symm h35), if_neg (Ne.symm h45), if_pos rfl]
  · rw [classify, if_neg (Ne.symm h16), if_neg (Ne.symm h26), if_neg (Ne.symm h36), if_neg (Ne.symm h46),
      if_neg (Ne.symm h56), if_pos rfl]

theorem classify_eq_unknown_iff (p : Params) (c : Byte) : classify p c = .unknown ↔ c ∉ p.commandCodes := by
  simp only [Params.commandCodes, List.mem_cons, List.not_mem_nil, or_false, not_or]
  unfold classify
  split_ifs <;> simp only [*, not_true_eq_false, not_false_eq_true, and_true, and_false, false_and]

/-- Distinct bytes taken out of the 256 leave the difference. -/
theorem card_bytes_notMem {codes : List Byte} (h : codes.Nodup) :
    (Finset.univ.filter fun n : Fin 256 => BitVec.ofFin n ∉ codes).card = 256 - codes.length := by
  have hnodup : (codes.map BitVec.toFin).Nodup := h.map fun _ _ => BitVec.eq_of_toFin_eq
  have hmem : ∀ n : Fin 256, n ∈ codes.map BitVec.toFin ↔ BitVec.ofFin n ∈ codes := fun n =>
    ⟨fun hn => by obtain ⟨c, hc, rfl⟩ := List.mem_map.mp hn; exact hc, fun hn => List.mem_map.mpr ⟨_, hn, rfl⟩⟩
  have hset : (Finset.univ.filter fun n : Fin 256 => BitVec.ofFin n ∉ codes) =
      ((codes.map BitVec.toFin).toFinset)ᶜ := by
    ext n
    simp only [Finset.mem_filter, Finset.mem_univ, true_and, Finset.mem_compl, List.mem_toFinset, hmem]
  rw [hset, Finset.card_compl, List.toFinset_card_of_nodup hnodup, List.length_map, Fintype.card_fin]

/-- Settles O1: each code by the distinctness of the six, and UNKNOWN by counting the bytes outside them. -/
theorem classifyMapsEachCode : Obligations.ClassifyMapsEachCode := by
  unfold Obligations.ClassifyMapsEachCode
  intro p hp
  obtain ⟨h1, h2, h3, h4, h5, h6⟩ := classify_of_code hp.1
  refine ⟨h1, h2, h3, h4, h5, h6, classify_eq_unknown_iff p, ?_⟩
  simp only [classify_eq_unknown_iff]
  exact card_bytes_notMem hp.1

/-! ### The checksum's arithmetic (40 R121) -/

theorem xor8_perm {as bs : List Byte} (h : as.Perm bs) : xor8 as = xor8 bs := by
  induction h with
  | nil => rfl
  | cons b _ ih => rw [xor8_cons, xor8_cons, ih]
  | swap b c l => simp only [xor8_cons, ← BitVec.xor_assoc, BitVec.xor_comm b c]
  | trans _ _ ih1 ih2 => exact ih1.trans ih2

/-- Changing a byte by `x` changes the checksum by `x`. -/
theorem xor8_set_xor {bs : List Byte} {i : Nat} (h : i < bs.length) (x : Byte) :
    xor8 (bs.set i (bs.getD i 0 ^^^ x)) = xor8 bs ^^^ x := by
  rw [xor8_set bs i h, ← BitVec.xor_assoc, xor_cancel]

theorem xor_ne_self {x : Byte} (h : x ≠ 0) (a : Byte) : a ^^^ x ≠ a := fun he =>
  h (BitVec.xor_right_inj a |>.mp (he.trans BitVec.xor_zero.symm))

/-- One bit is a change. -/
theorem twoPow_ne_zero {k : Nat} (h : k < 8) : BitVec.twoPow 8 k ≠ 0 := fun he => by
  have hbit : (BitVec.twoPow 8 k).getLsbD k = true := by simp [h]
  rw [he] at hbit
  simp at hbit

theorem getD_set_of_ne (bs : List Byte) {i j : Nat} (h : i ≠ j) (x : Byte) : (bs.set i x).getD j 0 = bs.getD j 0 := by
  rw [List.getD_eq_getElem?_getD, List.getElem?_set_ne h, List.getD_eq_getElem?_getD]

/-- Two places that swap their bytes: what one loses the other takes in (40 R121 c). -/
theorem xor8_swap {bs : List Byte} {i j : Nat} (hi : i < bs.length) (hj : j < bs.length) :
    xor8 ((bs.set i (bs.getD j 0)).set j (bs.getD i 0)) = xor8 bs := by
  by_cases hij : i = j
  · subst hij
    rw [List.set_set, xor8_set bs i hi, xor_cancel]
  · rw [xor8_set _ j (by simpa using hj), getD_set_of_ne bs hij, xor8_set bs i hi, xor_cancel, xor_cancel]

/-- Two equal bytes cancel; the length byte, now larger by 2, shows (40 R121 d). -/
theorem checksum_append_pair (cmd len x : Byte) (data : List Byte) :
    checksum cmd (len + 2) (data ++ [x, x]) = checksum cmd len data ^^^ (len ^^^ (len + 2)) := by
  have hpair : xor8 [x, x] = 0 := by simp
  calc checksum cmd (len + 2) (data ++ [x, x])
      = cmd ^^^ ((len + 2) ^^^ xor8 data) := by
        rw [checksum, xor8_cons, xor8_cons, xor8_append, hpair]; simp
    _ = cmd ^^^ ((len + 2) ^^^ xor8 data) ^^^ len ^^^ len := (xor_cancel _ _).symm
    _ = cmd ^^^ (len ^^^ xor8 data) ^^^ (len ^^^ (len + 2)) := by ac_rfl
    _ = checksum cmd len data ^^^ (len ^^^ (len + 2)) := by rw [checksum, xor8_cons, xor8_cons]

/-- Whether a sequence decodes is decided behind its first three bytes (40 R121 e). -/
theorem decodes_of_header {n p q : Byte} (n' p' q' : Byte) {rest : List Byte}
    (h : ∃ f, decodeFrame (n :: p :: q :: rest) = .ok f) : ∃ f, decodeFrame (n' :: p' :: q' :: rest) = .ok f := by
  obtain ⟨f, hf⟩ := h
  obtain ⟨p1, p2, hbytes, hlen, hsum⟩ := decodeFrame_ok hf
  obtain ⟨rfl, rfl, rfl, rfl⟩ : n = f.node ∧ p = p1 ∧ q = p2 ∧ rest = [f.command, f.length] ++ f.data ++ [f.checksum] := by
    simpa using hbytes
  refine ⟨{ f with node := n' }, ?_⟩
  have hlaid := decodeFrame_laid (node := n') (p1 := p') (p2 := q') (cmd := f.command) (c := f.checksum) hlen
  rwa [if_pos hsum] at hlaid

/-- Settles O4: every law is what the exclusive-or of single bytes gives. -/
theorem checksumArithmeticLaws : Obligations.ChecksumArithmeticLaws := by
  unfold Obligations.ChecksumArithmeticLaws
  refine ⟨fun _ _ => xor8_perm, fun bs i k hi hk => ?bitShows, fun bs i j x hi hj hij => ?sameChange,
    fun _ _ _ => xor8_swap, checksum_append_pair, fun n p q n' p' q' rest =>
      ⟨decodes_of_header n' p' q', decodes_of_header n p q⟩⟩
  case bitShows =>
    rw [xor8_set_xor hi]
    exact xor_ne_self (twoPow_ne_zero hk) _
  case sameChange =>
    rw [← getD_set_of_ne bs hij (bs.getD i 0 ^^^ x), xor8_set_xor (by simpa using hj), xor8_set_xor hi, xor_cancel]

/-! ### Decode against encode (40 R122 to R124) -/

/-- Outside its precondition `decode` names what fails (40 R123, 93 U11). -/
theorem decodeFrame_rejects {bytes : List Byte} (h : bytes.length < 6 ∨ bytes.length ≠ 6 + (bytes.getD 4 0).toNat) :
    decodeFrame bytes = .error .tooShort ∨ decodeFrame bytes = .error .lengthMismatch := by
  unfold decodeFrame
  split
  · rename_i node p1 p2 cmd len rest
    simp only [List.length_cons, List.getD_cons_succ, List.getD_cons_zero] at h
    by_cases h0 : rest.length = 0
    · exact .inl (if_pos h0)
    · rw [if_neg h0, if_pos (by omega)]
      exact .inr rfl
  · exact .inl rfl

/-- Settles O5: on a laid-out frame the checksum decides, and any other sequence fails the precondition. -/
theorem decodeIsGatedByChecksum : Obligations.DecodeIsGatedByChecksum := by
  unfold Obligations.DecodeIsGatedByChecksum
  exact ⟨fun _ _ _ _ _ _ _ => decodeFrame_laid, fun _ => decodeFrame_rejects⟩

/-- Settles O6: `encode` lays out a frame whose length byte holds the number of its data bytes. -/
theorem encodeThenDecodeKeepsFields : Obligations.EncodeThenDecodeKeepsFields := by
  unfold Obligations.EncodeThenDecodeKeepsFields
  intro p node cmd data hp hdata
  obtain ⟨_, _, hmax, _⟩ := hp
  have hfit : data.length ≤ 255 := hdata.trans hmax
  exact ⟨_, decodeFrame_encodeFrame p node cmd hfit, rfl, rfl, toNat_ofNat_of_le hfit, rfl⟩

/-- In a frame that decodes the bytes from the command on cancel out, the checksum byte included. -/
theorem xor8_drop_of_decodes {bytes : List Byte} {f : Frame} (h : decodeFrame bytes = .ok f) :
    xor8 (bytes.drop 3) = 0 := by
  obtain ⟨p1, p2, rfl, _, hsum⟩ := decodeFrame_ok h
  have hdrop : ([f.node, p1, p2, f.command, f.length] ++ f.data ++ [f.checksum]).drop 3 =
      (f.command :: f.length :: f.data) ++ [f.checksum] := rfl
  rw [hdrop, xor8_append_singleton, ← hsum, checksum, BitVec.xor_self]
  rfl

/-- A sequence laid out like a frame whose bytes from the command on do not cancel out is a ChecksumError (40 R123). -/
theorem decodeFrame_checksumError {bytes : List Byte} (hlen : bytes.length = 6 + (bytes.getD 4 0).toNat)
    (hsum : xor8 (bytes.drop 3) ≠ 0) : decodeFrame bytes = .error .checksumError := by
  match bytes, hlen with
  | node :: p1 :: p2 :: cmd :: len :: rest, hlen =>
    simp only [List.length_cons, List.getD_cons_succ, List.getD_cons_zero] at hlen
    obtain ⟨data, c, rfl⟩ : ∃ data c, rest = data ++ [c] :=
      ⟨rest.dropLast, _, (List.dropLast_append_getLast (List.ne_nil_of_length_pos (by omega))).symm⟩
    have hdata : data.length = len.toNat := by
      rw [List.length_append, List.length_singleton] at hlen
      omega
    have hne : checksum cmd len data ≠ c := fun he => hsum <| by
      have hdrop : (node :: p1 :: p2 :: cmd :: len :: (data ++ [c])).drop 3 = (cmd :: len :: data) ++ [c] := rfl
      rw [hdrop, xor8_append_singleton, ← he, checksum, BitVec.xor_self]
      rfl
    have hlaid := decodeFrame_laid (node := node) (p1 := p1) (p2 := p2) (cmd := cmd) (c := c) hdata
    rwa [if_neg hne] at hlaid

/-- A change `x` of any byte from the command on but the length byte, in a frame that decodes, is a ChecksumError: the layout
stays, and the bytes no longer cancel out. -/
theorem decodeFrame_set_xor {bytes : List Byte} {f : Frame} {i : Nat} {x : Byte} (hf : decodeFrame bytes = .ok f)
    (hx : x ≠ 0) (hi : 3 ≤ i) (hi4 : i ≠ 4) (hilen : i < bytes.length)
    (hlen : bytes.length = 6 + (bytes.getD 4 0).toNat) :
    decodeFrame (bytes.set i (bytes.getD i 0 ^^^ x)) = .error .checksumError := by
  refine decodeFrame_checksumError (by rw [List.length_set, getD_set_of_ne bytes hi4, hlen]) ?_
  have hget : bytes.getD i 0 = (bytes.drop 3).getD (i - 3) 0 := by
    rw [List.getD_eq_getElem?_getD, List.getD_eq_getElem?_getD, List.getElem?_drop, Nat.add_sub_cancel' hi]
  rw [List.drop_set, if_neg (by omega), hget, xor8_set_xor (by rw [List.length_drop]; omega), xor8_drop_of_decodes hf]
  simpa using hx

/-- Settles O7: one flipped bit changes exactly one side of the checksum test. -/
theorem singleBitErrorsAreCaught : Obligations.SingleBitErrorsAreCaught := by
  unfold Obligations.SingleBitErrorsAreCaught
  intro bytes f i k hf hk hi
  have hlen : bytes.length = 6 + f.length.toNat ∧ bytes.getD 4 0 = f.length := by
    obtain ⟨p1, p2, hbytes, hdata, _⟩ := decodeFrame_ok hf
    rw [hbytes]
    exact ⟨by simp [hdata]; omega, rfl⟩
  exact decodeFrame_set_xor hf (twoPow_ne_zero hk) (by omega) (by omega) (by omega) (by rw [hlen.1, hlen.2])

/-- The read request, byte by byte (30 R94, R101). -/
theorem readRequest_bytes (p : Params) (ident : Addr) :
    encodeFrame p p.nodeIdTx p.cmdReadreq (requestData ident []) =
      [p.nodeIdTx, p.prefix1, p.prefix2, p.cmdReadreq, 2, identLow ident, identHigh ident,
        p.cmdReadreq ^^^ 2 ^^^ identLow ident ^^^ identHigh ident] := by
  simp [encodeFrame, requestData, checksum, BitVec.xor_assoc]

/-- The write request, byte by byte (30 R95, R101). -/
theorem writeRequest_bytes (p : Params) (ident : Addr) (value : List Byte) :
    encodeFrame p p.nodeIdTx p.cmdWritereq (requestData ident value) =
      [p.nodeIdTx, p.prefix1, p.prefix2, p.cmdWritereq, BitVec.ofNat 8 (2 + value.length), identLow ident, identHigh ident]
        ++ value ++
        [p.cmdWritereq ^^^ BitVec.ofNat 8 (2 + value.length) ^^^ identLow ident ^^^ identHigh ident ^^^ xor8 value] := by
  rw [encodeFrame, length_requestData]
  simp [requestData, checksum, BitVec.xor_assoc]

/-- Settles O9: the encoder's bytes with the identifier split and the checksum's terms written out. -/
theorem requestFramesAreLaidOut : Obligations.RequestFramesAreLaidOut := by
  unfold Obligations.RequestFramesAreLaidOut
  intro p ident value hfit
  exact ⟨identLow ident, identHigh ident, BitVec.ofNat 8 (2 + value.length), toNat_identLow ident, toNat_identHigh ident,
    toNat_ofNat_of_le hfit, readRequest_bytes p ident, writeRequest_bytes p ident value⟩

/-- Settles O10: each word is short, so the decoder is run on it. -/
theorem writtenWordsDecode : Obligations.WrittenWordsDecode := by
  unfold Obligations.WrittenWordsDecode
  exact ⟨rfl, rfl, rfl, rfl, rfl⟩

/-! ### The decoder of each direction on the encoder's bytes (30 R100, R101) -/

theorem decodeInbound_encodeFrame (p : Params) (node cmd : Byte) {data : List Byte} (h : data.length ≤ 255) :
    decodeInbound p (encodeFrame p node cmd data) = .ok (inboundInstr p cmd data) := by
  rw [decodeInbound, decodeFrame_encodeFrame p node cmd h]

/-- An inbound instruction is a frame to the block whose command byte selects it (30 R100). -/
theorem encode_inbound {p : Params} {i : Instr} (hp : p.Ok) (hd : i.direction = .inbound) (hw : wellFormed p i = true) :
    ∃ cmd payload, encode p i = encodeFrame p p.nodeIdRx cmd payload ∧ inboundInstr p cmd payload = i ∧
      payload.length ≤ p.maxData := by
  obtain ⟨hdatablock, hreaddata, hreadreq, hwritereq, hack, hnak⟩ := classify_of_code hp.1
  cases i with
  | datablock payload => exact ⟨_, payload, rfl, by rw [inboundInstr, hdatablock], of_decide_eq_true hw⟩
  | readdata payload => exact ⟨_, payload, rfl, by rw [inboundInstr, hreaddata], of_decide_eq_true hw⟩
  | readreq payload => exact ⟨_, payload, rfl, by rw [inboundInstr, hreadreq], of_decide_eq_true hw⟩
  | writereq payload => exact ⟨_, payload, rfl, by rw [inboundInstr, hwritereq], of_decide_eq_true hw⟩
  | ack payload => exact ⟨_, payload, rfl, by rw [inboundInstr, hack], of_decide_eq_true hw⟩
  | nak payload => exact ⟨_, payload, rfl, by rw [inboundInstr, hnak], of_decide_eq_true hw⟩
  | unknown cmd payload =>
    obtain ⟨hcmd, hfits⟩ := Bool.and_eq_true_iff.mp hw
    have hclass : classify p cmd = .unknown := (classify_eq_unknown_iff p cmd).mpr (of_decide_eq_true hcmd)
    exact ⟨cmd, payload, rfl, by rw [inboundInstr, hclass], of_decide_eq_true hfits⟩
  | txAck => cases hd
  | txNak => cases hd
  | txReadreq ident => cases hd
  | txWritereq ident value => cases hd

/-- A frame with the block's own header is no control byte, and stands for the request its command and data make (30 R101). -/
theorem decodeOutbound_encodeFrame (p : Params) (cmd : Byte) {data : List Byte} (h : data.length ≤ 255) :
    decodeOutbound p (encodeFrame p p.nodeIdTx cmd data) = outboundRequest p cmd data := by
  have hlong : ∀ b : Byte, encodeFrame p p.nodeIdTx cmd data ≠ [b] := fun b he => by
    have hlen := congrArg List.length he
    rw [length_encodeFrame, List.length_singleton] at hlen
    omega
  have hheader : (encodeFrame p p.nodeIdTx cmd data).take 3 = [p.nodeIdTx, p.prefix1, p.prefix2] := rfl
  rw [decodeOutbound, if_neg (hlong _), if_neg (hlong _), decodeFrame_encodeFrame p _ cmd h, hheader]
  exact if_pos rfl

theorem outboundRequest_readreq {p : Params} (hp : p.Ok) (ident : Addr) :
    outboundRequest p p.cmdReadreq (requestData ident []) = .ok (.txReadreq ident) := by
  obtain ⟨_, _, hclass, _⟩ := classify_of_code hp.1
  simp only [outboundRequest, hclass, requestData, identOfBytes_split]

theorem outboundRequest_writereq {p : Params} (hp : p.Ok) (ident : Addr) (value : List Byte) :
    outboundRequest p p.cmdWritereq (requestData ident value) = .ok (.txWritereq ident value) := by
  obtain ⟨_, _, _, hclass, _⟩ := classify_of_code hp.1
  simp only [outboundRequest, hclass, requestData, identOfBytes_split]

theorem decodeOutbound_readRequest {p : Params} (hp : p.Ok) (ident : Addr) :
    decodeOutbound p (encodeFrame p p.nodeIdTx p.cmdReadreq (requestData ident [])) = .ok (.txReadreq ident) := by
  rw [decodeOutbound_encodeFrame p _ (by simp), outboundRequest_readreq hp]

theorem decodeOutbound_writeRequest {p : Params} (hp : p.Ok) (ident : Addr) {value : List Byte}
    (h : 2 + value.length ≤ 255) :
    decodeOutbound p (encodeFrame p p.nodeIdTx p.cmdWritereq (requestData ident value)) = .ok (.txWritereq ident value) := by
  rw [decodeOutbound_encodeFrame p _ (by rwa [length_requestData]), outboundRequest_writereq hp]

/-- Settles O8, by direction: every inbound instruction is a frame whose command byte selects it again, and an outbound one a
control byte or one of the two request frames. -/
theorem everyInstructionDecodesFromItsBytes : Obligations.EveryInstructionDecodesFromItsBytes := by
  unfold Obligations.EveryInstructionDecodesFromItsBytes
  intro p i hp hw
  obtain ⟨_, _, hmax, _⟩ := id hp
  cases hd : i.direction with
  | inbound =>
    obtain ⟨cmd, payload, hbytes, hinstr, hfits⟩ := encode_inbound hp hd hw
    rw [decodeMessage, hbytes, decodeInbound_encodeFrame p _ _ (hfits.trans hmax), hinstr]
  | outbound =>
    rw [decodeMessage]
    cases i with
    | txAck => rfl
    | txNak => rfl
    | txReadreq ident => exact decodeOutbound_readRequest hp ident
    | txWritereq ident value => exact decodeOutbound_writeRequest hp ident ((of_decide_eq_true hw).trans hmax)
    | _ => cases hd

end Sys2Proof
end

