-- ==== Sys2Proof/Proofs/Assembler.lean ====
section
/-! PROOFS. The receive assembler (40 R125 to R132): what one byte does to the frame registers, the run over a whole frame, and
the frame's completion; O11, O13 to O15, O17 and O18. -/

namespace Sys2Proof

open Sys2Proof.Machine Sys2Proof.Safety Sys2Proof.Laws

/-! ### One byte on the frame registers -/

/-- HUNT on the frame registers (40 R125). -/
def huntRegs (p : Params) (b : Byte) (r : RxRegs) : RxRegs :=
  if b = p.nodeIdRx then { r with node := b, phase := .pfx1 } else { r with phase := .hunt }

/-- A byte at offset 1 or 2 on the frame registers (40 R126, R127). -/
def prefixRegs (p : Params) (expected : Byte) (next : Phase) (b : Byte) (r : RxRegs) : RxRegs :=
  if p.prefixCheck ∧ b ≠ expected then huntRegs p b r else { r with phase := next }

/-- The length byte on the frame registers (40 R129). -/
def lenRegs (p : Params) (b : Byte) (r : RxRegs) : RxRegs :=
  { r with
    len := b, xor := r.xor ^^^ b, cnt := 0, overLen := decide (p.maxData < b.toNat)
    phase := if b = 0 then .csum else .data }

/-- A data byte on the frame registers (40 R130). -/
def dataRegs (p : Params) (b : Byte) (r : RxRegs) : RxRegs :=
  { r with
    buf := if r.cnt.toNat < p.maxData then r.buf.write r.cnt.toNat b else r.buf
    xor := r.xor ^^^ b, cnt := r.cnt + 1
    phase := if r.cnt + 1 = r.len then .csum else .data }

/-- The assembler's transition on the frame registers, for a byte that completes no frame (40 R125 to R130). -/
def assemble (p : Params) (b : Byte) (r : RxRegs) : RxRegs :=
  match r.phase with
  | .hunt => huntRegs p b r
  | .pfx1 => prefixRegs p p.prefix1 .pfx2 b r
  | .pfx2 => prefixRegs p p.prefix2 .cmd b r
  | .cmd => { r with cmd := b, xor := b, phase := .len }
  | .len => lenRegs p b r
  | .data => dataRegs p b r
  | .csum => r

theorem huntByte_eq (b : Byte) (s : State) : huntByte b s = { s with rx := huntRegs s.params b s.rx } := by
  unfold huntByte huntRegs
  split <;> rfl

theorem prefixByte_eq (expected : Byte) (next : Phase) (b : Byte) (s : State) :
    prefixByte expected next b s = { s with rx := prefixRegs s.params expected next b s.rx } := by
  unfold prefixByte prefixRegs
  split
  · rw [huntByte_eq]
    unfold huntRegs
    split <;> rfl
  · rfl

/-- A byte that completes no frame is one transition of the frame registers. -/
theorem receiveByte_assembles {b : Byte} {s : State} (h : s.rx.phase ≠ .csum) :
    receiveByte b s = .next { s with rx := assemble s.params b s.rx } := by
  unfold receiveByte assemble
  cases hphase : s.rx.phase with
  | hunt => exact congrArg _ (huntByte_eq b s)
  | pfx1 => exact congrArg _ (prefixByte_eq _ _ b s)
  | pfx2 => exact congrArg _ (prefixByte_eq _ _ b s)
  | cmd => rfl
  | len => rfl
  | data => rfl
  | csum => exact absurd hphase h

theorem step_assembles {s : State} {b : Byte} {rest : List Input} (hreads : Reads s b rest) (h : s.rx.phase ≠ .csum) :
    step s = .next { s.taking rest with rx := assemble s.params b s.rx } := by
  rw [step_reads hreads, receiveByte_assembles (by rwa [taking_rx])]
  simp only [taking_rx, taking_params]

section Phases

variable {p : Params} {b : Byte} {r : RxRegs}

theorem assemble_hunt (h : r.phase = .hunt) : assemble p b r = huntRegs p b r := by rw [assemble, h]

theorem assemble_pfx1 (h : r.phase = .pfx1) : assemble p b r = prefixRegs p p.prefix1 .pfx2 b r := by rw [assemble, h]

theorem assemble_pfx2 (h : r.phase = .pfx2) : assemble p b r = prefixRegs p p.prefix2 .cmd b r := by rw [assemble, h]

theorem assemble_cmd (h : r.phase = .cmd) : assemble p b r = { r with cmd := b, xor := b, phase := .len } := by
  rw [assemble, h]

theorem assemble_len (h : r.phase = .len) : assemble p b r = lenRegs p b r := by rw [assemble, h]

theorem assemble_data (h : r.phase = .data) : assemble p b r = dataRegs p b r := by rw [assemble, h]

end Phases

/-- A data byte keeps the buffer canonical. -/
theorem wf_dataRegs {r : RxRegs} (h : r.buf.wf) (p : Params) (b : Byte) : (dataRegs p b r).buf.wf := by
  unfold dataRegs
  dsimp only
  split
  · exact Memory.wf_write _ b h
  · exact h

/-- A data byte is stored at the count if it fits, and no other byte of the buffer changes (40 R130, D8). -/
theorem read_dataRegs {r : RxRegs} (h : r.buf.wf) (p : Params) (b : Byte) (a : Nat) :
    (dataRegs p b r).buf.read a = if a = r.cnt.toNat ∧ r.cnt.toNat < p.maxData then b else r.buf.read a := by
  unfold dataRegs
  by_cases hroom : r.cnt.toNat < p.maxData
  · simp only [hroom, if_true, Memory.read_write h, and_true]
  · simp only [hroom, if_false, and_false]

/-- With room, the data byte is appended to those stored so far. -/
theorem readN_dataRegs {p : Params} {r : RxRegs} (h : r.buf.wf) (hroom : r.cnt.toNat < p.maxData) (b : Byte) :
    (dataRegs p b r).buf.readN 0 (r.cnt.toNat + 1) = r.buf.readN 0 r.cnt.toNat ++ [b] := by
  have hwrite := Memory.readN_write_succ h 0 r.cnt.toNat b
  rw [Nat.zero_add] at hwrite
  rw [dataRegs, if_pos hroom, hwrite]

/-- The count does not wrap as long as it is below the length. -/
theorem toNat_succ_of_lt {a b : Byte} (h : a.toNat < b.toNat) : (a + 1).toNat = a.toNat + 1 := by
  have hb := b.isLt
  rw [BitVec.toNat_add]
  simp
  omega

/-- Settles O11: HUNT and the two bytes behind the marker change node and phase at most. -/
theorem synchronisationSteps : Obligations.SynchronisationSteps := by
  unfold Obligations.SynchronisationSteps
  intro s b rest hreads u again
  have hagain : { u with rx := huntRegs s.params b s.rx } = again := by
    unfold huntRegs again
    split <;> rfl
  refine ⟨fun h => ?_, fun h => ?_, fun h => ?_⟩
  · rw [step_assembles hreads (by simp [h]), assemble_hunt h, ← hagain]
  · rw [step_assembles hreads (by simp [h]), assemble_pfx1 h, ← hagain, prefixRegs]
    split <;> rfl
  · rw [step_assembles hreads (by simp [h]), assemble_pfx2 h, ← hagain, prefixRegs]
    split <;> rfl

/-- Settles O13: the length byte and a data byte as transitions of the frame registers, the latter with its store. -/
theorem lengthAndDataSteps : Obligations.LengthAndDataSteps := by
  unfold Obligations.LengthAndDataSteps
  intro s b rest hreads hbuf
  refine ⟨fun h => ?_, fun h => ?_⟩
  · rw [step_assembles hreads (by simp [h]), assemble_len h]
    rfl
  · rw [step_assembles hreads (by simp [h]), assemble_data h]
    exact ⟨_, rfl, wf_dataRegs hbuf s.params b, read_dataRegs hbuf s.params b⟩

/-! ### A run of bytes on the frame registers -/

/-- The bytes lead from frame registers `r` to `r'`, and none of them completes a frame. -/
inductive Assembles (p : Params) : RxRegs → List Byte → RxRegs → Prop where
  | nil (r : RxRegs) : Assembles p r [] r
  | cons {r r' : RxRegs} {b : Byte} {bytes : List Byte} (h : r.phase ≠ .csum)
      (rest : Assembles p (assemble p b r) bytes r') : Assembles p r (b :: bytes) r'

theorem Assembles.append {p : Params} {r r' r'' : RxRegs} {as bs : List Byte} (h : Assembles p r as r')
    (h' : Assembles p r' bs r'') : Assembles p r (as ++ bs) r'' := by
  induction h with
  | nil => exact h'
  | cons hphase _ ih => exact .cons hphase (ih h')

/-- The frame registers when the length byte is in: `r` with the fields of the frame so far (40 R125 to R129). -/
def headRegs (p : Params) (cmd len : Byte) (r : RxRegs) : RxRegs :=
  lenRegs p len { r with node := p.nodeIdRx, cmd := cmd, xor := cmd, phase := .len }

/-- From HUNT, the five bytes up to the length byte (40 R125 to R129). -/
theorem assembles_head {p : Params} {r : RxRegs} {p1 p2 : Byte} (cmd len : Byte) (hphase : r.phase = .hunt)
    (hprefix : p.prefixCheck = true → p1 = p.prefix1 ∧ p2 = p.prefix2) :
    Assembles p r [p.nodeIdRx, p1, p2, cmd, len] (headRegs p cmd len r) := by
  have hpass1 : ¬ (p.prefixCheck = true ∧ p1 ≠ p.prefix1) := fun h => h.2 (hprefix h.1).1
  have hpass2 : ¬ (p.prefixCheck = true ∧ p2 ≠ p.prefix2) := fun h => h.2 (hprefix h.1).2
  refine .cons (by simp [hphase]) ?_
  rw [assemble_hunt hphase, huntRegs, if_pos rfl]
  refine .cons (by simp) ?_
  rw [assemble_pfx1 rfl, prefixRegs, if_neg hpass1]
  refine .cons (by simp) ?_
  rw [assemble_pfx2 rfl, prefixRegs, if_neg hpass2]
  refine .cons (by simp) ?_
  rw [assemble_cmd rfl]
  refine .cons (by simp) ?_
  rw [assemble_len rfl]
  exact .nil _

/-- The data bytes that are still to come bring the registers to CSUM; if the frame fits, `rxbuf` then holds them behind those
already there (40 R130). -/
theorem assembles_data {p : Params} {r : RxRegs} (data : List Byte)
    (hphase : r.phase = if r.cnt = r.len then .csum else .data) (hcnt : r.cnt.toNat + data.length = r.len.toNat)
    (hbuf : r.buf.wf) :
    ∃ buf, Assembles p r data { r with phase := .csum, cnt := r.len, xor := r.xor ^^^ xor8 data, buf := buf } ∧
      (r.len.toNat ≤ p.maxData → buf.readN 0 r.len.toNat = r.buf.readN 0 r.cnt.toNat ++ data) := by
  induction data generalizing r with
  | nil =>
    have hdone : r.cnt = r.len := BitVec.eq_of_toNat_eq (by simpa using hcnt)
    rw [if_pos hdone] at hphase
    refine ⟨r.buf, ?_, fun _ => by rw [List.append_nil, hdone]⟩
    have hcount : { r with cnt := r.len } = r := congrArg (fun c => { r with cnt := c }) hdone.symm
    rw [xor8_nil, ← hphase, show r.xor ^^^ 0 = r.xor from BitVec.xor_zero, hcount]
    exact .nil r
  | cons b data ih =>
    rw [List.length_cons] at hcnt
    have hmore : r.cnt ≠ r.len := fun h => by
      rw [h] at hcnt
      omega
    rw [if_neg hmore] at hphase
    have hnext : (r.cnt + 1).toNat = r.cnt.toNat + 1 := toNat_succ_of_lt (b := r.len) (by omega)
    obtain ⟨buf, hrun, hread⟩ := ih (r := dataRegs p b r) rfl (by simp only [dataRegs, hnext]; omega) (wf_dataRegs hbuf p b)
    refine ⟨buf, .cons (by simp [hphase]) ?_, fun hfit => ?_⟩
    · rw [assemble_data hphase, xor8_cons, ← BitVec.xor_assoc]
      exact hrun
    · have hroom : r.cnt.toNat < p.maxData := by
        have : r.len.toNat ≤ p.maxData := hfit
        omega
      have hrest : buf.readN 0 r.len.toNat = (dataRegs p b r).buf.readN 0 (r.cnt + 1).toNat ++ data := hread hfit
      rw [hrest, hnext, readN_dataRegs hbuf hroom, List.append_assoc, List.singleton_append]

/-- The frame registers that the bytes of a frame but for its last leave in CSUM: the fields, the running checksum, the
over-length mark and, unless over-length, the data (40 R132). -/
structure Latched (p : Params) (cmd len : Byte) (data : List Byte) (r : RxRegs) : Prop where
  phase_eq   : r.phase = .csum
  node_eq    : r.node = p.nodeIdRx
  cmd_eq     : r.cmd = cmd
  len_eq     : r.len = len
  xor_eq     : r.xor = checksum cmd len data
  overLen_eq : r.overLen = decide (p.maxData < len.toNat)
  payload_eq : len.toNat ≤ p.maxData → r.buf.readN 0 len.toNat = data

/-- From HUNT, the bytes of a laid-out frame but for its last (40 R132). -/
theorem assembles_frame {p : Params} {r : RxRegs} {p1 p2 cmd len : Byte} {data : List Byte} (hphase : r.phase = .hunt)
    (hbuf : r.buf.wf) (hprefix : p.prefixCheck = true → p1 = p.prefix1 ∧ p2 = p.prefix2)
    (hlen : data.length = len.toNat) :
    ∃ r', Assembles p r ([p.nodeIdRx, p1, p2, cmd, len] ++ data) r' ∧ Latched p cmd len data r' := by
  have hhead : (headRegs p cmd len r).phase = if 0 = len then .csum else .data := by
    simp only [headRegs, lenRegs, eq_comm]
  obtain ⟨buf, hrun, hread⟩ := assembles_data (p := p) (r := headRegs p cmd len r) data hhead
    (by simpa [headRegs, lenRegs] using hlen) hbuf
  refine ⟨_, (assembles_head cmd len hphase hprefix).append hrun, rfl, rfl, rfl, rfl, ?_, rfl, fun hfit => ?_⟩
  · show cmd ^^^ len ^^^ xor8 data = _
    rw [BitVec.xor_assoc, checksum, xor8_cons, xor8_cons]
  · exact hread hfit

/-! ### A run of bytes as steps -/

/-- `k` steps take in bytes up to `rest` and leave frame registers `r`: beside these only the debug port may change. -/
def Receives (k : Nat) (s : State) (r : RxRegs) (rest : List Input) : Prop :=
  ∃ d, steps k s = .next { s with rx := r, input := rest, dbg := d }

theorem steps_add {k : Nat} {s t : State} (n : Nat) (h : steps k s = .next t) : steps (k + n) s = steps n t := by
  induction k generalizing s with
  | zero =>
    cases h
    rw [Nat.zero_add]
  | succ k ih =>
    rw [Nat.succ_add, steps]
    rw [steps] at h
    cases hstep : step s with
    | next u => exact ih (by simpa only [hstep] using h)
    | fault _ => simp [hstep] at h
    | refused _ => simp [hstep] at h

theorem steps_one (s : State) : steps 1 s = step s := by
  rw [steps]
  cases step s <;> rfl

/-- Taking an input off the queue changes the queue and the debug port. -/
theorem taking_eq (s : State) (rest : List Input) :
    s.taking rest = { s with input := rest, dbg := (s.taking rest).dbg } :=
  debugTexts_eq _

theorem step_receives {s : State} {b : Byte} {rest : List Input} (hreads : Reads s b rest) (h : s.rx.phase ≠ .csum) :
    ∃ d, step s = .next { s with rx := assemble s.params b s.rx, input := rest, dbg := d } :=
  ⟨_, by rw [step_assembles hreads h, taking_eq]⟩

/-- What the bytes do to the frame registers is all that the steps which take them in do. -/
theorem receives_of_assembles {s : State} {r : RxRegs} {bytes : List Byte} {rest : List Input}
    (h : Assembles s.params s.rx bytes r) (hpending : s.startPending = false)
    (hinput : s.input = bytes.map Input.byte ++ rest) : Receives bytes.length s r rest := by
  induction bytes generalizing s with
  | nil =>
    cases h
    have hrest : s.input = rest := hinput
    exact ⟨s.dbg, by rw [← hrest]; rfl⟩
  | cons b bytes ih =>
    obtain _ | ⟨hphase, hrun⟩ := h
    obtain ⟨d, hstep⟩ := step_receives ⟨hpending, hinput⟩ hphase
    obtain ⟨d', hsteps⟩ := ih hrun hpending
      (s := { s with rx := assemble s.params b s.rx, input := bytes.map Input.byte ++ rest, dbg := d }) rfl
    exact ⟨d', (steps_next _ hstep).trans hsteps⟩

/-- From HUNT, the bytes of a laid-out frame but for its last latch it (40 R132). -/
theorem receives_frame {s : State} {p1 p2 cmd len : Byte} {data : List Byte} {rest : List Input}
    (hbuf : s.rx.buf.wf) (hpending : s.startPending = false) (hphase : s.rx.phase = .hunt)
    (hlen : data.length = len.toNat)
    (hprefix : s.params.prefixCheck = true → p1 = s.params.prefix1 ∧ p2 = s.params.prefix2)
    (hinput : s.input = ([s.params.nodeIdRx, p1, p2, cmd, len] ++ data).map Input.byte ++ rest) :
    ∃ r, Receives (5 + data.length) s r rest ∧ Latched s.params cmd len data r := by
  obtain ⟨r, hrun, hlatched⟩ := assembles_frame hphase hbuf hprefix hlen
  have hcount : ([s.params.nodeIdRx, p1, p2, cmd, len] ++ data).length = 5 + data.length := by
    rw [List.length_append]; rfl
  exact ⟨r, hcount ▸ receives_of_assembles hrun hpending hinput, hlatched⟩

/-- Settles O17: the latched registers hold the frame's fields, and the running checksum is the one `decode` tests. -/
theorem assemblerAgreesWithDecode : Obligations.AssemblerAgreesWithDecode := by
  unfold Obligations.AssemblerAgreesWithDecode
  intro s p1 p2 cmd len c data rest _ hbuf hpending hphase hlen hprefix hinput
  obtain ⟨r, ⟨d, hsteps⟩, hlatched⟩ := receives_frame hbuf hpending hphase hlen hprefix hinput
  refine ⟨_, hsteps, hlatched.phase_eq, rfl, rfl, rfl, hlatched.overLen_eq.trans (by rw [hlen]), fun hover => ?_⟩
  have hfit : len.toNat ≤ s.params.maxData := by
    have := hlatched.overLen_eq.symm.trans hover
    simpa using this
  rw [decodeFrame_laid hlen]
  constructor
  · have hverdict : verdict c { s with rx := r, input := .byte c :: rest, dbg := d } = decide (checksum cmd len data = c) := by
      have hover : r.overLen = false := hover
      simp [verdict, hlatched.xor_eq, hover]
    rw [hverdict]
    split <;> simp [*]
  · intro f hf
    split at hf
    · cases hf
      refine ⟨hlatched.node_eq, hlatched.cmd_eq, hlatched.len_eq, ?_⟩
      show r.buf.readN 0 r.len.toNat = data
      rw [hlatched.len_eq, hlatched.payload_eq hfit]
    · cases hf

/-! ### Frame completion -/

theorem csumByte_of_invalid {b : Byte} {s : State} (h : verdict b s = false) :
    csumByte b s = .next (reportStatus (sendNak (raise (invalidCondition b s) (latchVerdict b s)))) := by
  have hflag : (latchVerdict b s).flags.valid = false := h
  rw [csumByte, hflag]
  rfl

theorem csumByte_of_valid {b : Byte} {s : State} (h : verdict b s = true) :
    csumByte b s = andThen (dispatch (latchVerdict b s)) reportStatus := by
  have hflag : (latchVerdict b s).flags.valid = true := h
  rw [csumByte, hflag]
  rfl

theorem dispatch_of_fits {s : State} (h : s.rx.len.toNat ≤ s.params.maxData) : dispatch s = exec (fetchInstr s) s := by
  rw [dispatch, if_pos h]

theorem dispatch_of_overrun {s : State} (h : ¬ s.rx.len.toNat ≤ s.params.maxData) :
    dispatch s = .fault (.bufferBounds s.rx.len.toNat s.params.maxData) := by
  rw [dispatch, if_neg h]

/-- The step that completes a frame (40 R131). -/
theorem step_completes {s : State} {b : Byte} {rest : List Input} (hreads : Reads s b rest) (h : s.rx.phase = .csum) :
    step s = csumByte b (s.taking rest) := by
  rw [step_reads hreads, receiveByte_csum (by rw [taking_rx, h])]

/-- The step that completes a valid frame, in every state: its instruction runs from the state with the verdict latched, and
the status report follows (40 R131, 44 R200). -/
theorem step_runs_instruction {s : State} {b : Byte} {rest : List Input} (hreads : Reads s b rest)
    (hphase : s.rx.phase = .csum) (hvalid : verdict b s = true) (hfit : s.rx.len.toNat ≤ s.params.maxData) :
    step s = andThen
      (exec (inboundInstr s.params s.rx.cmd (rxPayload s)) { s.taking rest with
        rx := { s.rx with phase := .hunt }, flags := { valid := true, handled := false, cond := .none } })
      reportStatus := by
  have hlatch : latchVerdict b (s.taking rest) = { s.taking rest with
      rx := { s.rx with phase := .hunt }, flags := { valid := true, handled := false, cond := .none } } := by
    rw [latchVerdict, verdict_taking, hvalid, taking_rx]
  have hfetch : fetchInstr (latchVerdict b (s.taking rest)) = inboundInstr s.params s.rx.cmd (rxPayload s) := by
    simp [fetchInstr, rxPayload]
  rw [step_completes hreads hphase, csumByte_of_valid (by rw [verdict_taking, hvalid]),
    dispatch_of_fits (by simpa using hfit), hfetch, hlatch]

/-- The checksum byte of a latched frame that fits runs the instruction which command byte and data select. -/
theorem step_of_latched {s : State} {b cmd len : Byte} {data : List Byte} {rest : List Input} (hreads : Reads s b rest)
    (hlatched : Latched s.params cmd len data s.rx) (hsum : checksum cmd len data = b)
    (hfit : len.toNat ≤ s.params.maxData) :
    step s = andThen
      (exec (inboundInstr s.params cmd data) { s.taking rest with
        rx := { s.rx with phase := .hunt }, flags := { valid := true, handled := false, cond := .none } })
      reportStatus := by
  have hover : s.rx.overLen = false := by rw [hlatched.overLen_eq, decide_eq_false (by omega)]
  have hvalid : verdict b s = true := by simp [verdict, hlatched.xor_eq, hsum, hover]
  have hpayload : rxPayload s = data := by rw [rxPayload, hlatched.len_eq, hlatched.payload_eq hfit]
  rw [step_runs_instruction hreads hlatched.phase_eq hvalid (by rwa [hlatched.len_eq]), hlatched.cmd_eq, hpayload]

/-- In CSUM under the invariant, the verdict on `b` is the checksum test of `decode` (40 R132). -/
theorem verdict_of_decodeInbound {s : State} {b : Byte} {i : Instr} (hinv : Inv s) (hphase : s.rx.phase = .csum)
    (hover : s.rx.overLen = false) (hi : decodeInbound s.params (latchedFrame s b) = .ok i) :
    verdict b s = true ∧ i = inboundInstr s.params s.rx.cmd (rxPayload s) := by
  have hassembler := hinv.assembler
  simp only [AssemblerOk, hphase] at hassembler
  obtain ⟨_, hcnt, hlatch⟩ := hassembler
  have hxor : s.rx.xor = checksum s.rx.cmd s.rx.len (rxPayload s) := by rw [hlatch.xor hover, hcnt, rxPayload]
  rw [decodeInbound, latchedFrame, decodeFrame_laid (by rw [rxPayload, Memory.length_readN])] at hi
  by_cases hsum : checksum s.rx.cmd s.rx.len (rxPayload s) = b
  · rw [if_pos hsum] at hi
    cases hi
    exact ⟨by simp [verdict, hxor, hsum, hover], rfl⟩
  · rw [if_neg hsum] at hi
    cases hi

/-- Settles O14: the instruction that `decode` reads from the latched frame is the one that the completing step fetches. -/
theorem stepRunsDecodedInstruction : Obligations.StepRunsDecodedInstruction := by
  unfold Obligations.StepRunsDecodedInstruction
  intro s b rest i hinv hreads hphase hover hi
  obtain ⟨hvalid, rfl⟩ := verdict_of_decodeInbound hinv hphase hover hi
  exact step_valid hinv hreads hphase hvalid

/-- Settles O15: with a false verdict the completion is NAK, the raised condition and the report. -/
theorem invalidFrameGetsNakOnly : Obligations.InvalidFrameGetsNakOnly := by
  unfold Obligations.InvalidFrameGetsNakOnly
  intro s b rest hreads hphase hinvalid
  have hstep := step_completes hreads hphase
  rw [csumByte_of_invalid (by rw [verdict_taking, hinvalid])] at hstep
  refine ⟨(invalidCondition b (s.taking rest)).cond, ?_, ?_⟩
  · unfold invalidCondition
    split
    · exact .inr rfl
    · exact .inl rfl
  · rw [hstep, reportStatus_eq, sendNak_eq, raise, latchVerdict, verdict_taking, hinvalid]
    simp

/-- Settles O18: the bytes but for the checksum latch the frame (O17's run), and the checksum's step runs the instruction that
the latched command and payload select. -/
theorem wireFrameRunsItsInstruction : Obligations.WireFrameRunsItsInstruction := by
  unfold Obligations.WireFrameRunsItsInstruction
  intro s i rest hp hbuf hpending hphase hdirection hwf hinput
  obtain ⟨cmd, payload, hbytes, hinstr, hpayload⟩ := encode_inbound hp hdirection hwf
  obtain ⟨_, _, hmax, _⟩ := id hp
  have hlen := toNat_ofNat_of_le (hpayload.trans hmax)
  rw [hbytes, encodeFrame, List.map_append, List.append_assoc] at hinput
  obtain ⟨r, ⟨d, hsteps⟩, hlatched⟩ := receives_frame hbuf hpending hphase hlen.symm (fun _ => ⟨rfl, rfl⟩) hinput
  have hlast := step_of_latched (rest := rest)
    (s := { s with
      rx := r, dbg := d, input := .byte (checksum cmd (BitVec.ofNat 8 payload.length) payload) :: rest })
    ⟨hpending, rfl⟩ hlatched rfl (by rwa [hlen])
  have hsplit : (encode s.params i).length = (5 + payload.length) + 1 := by
    rw [hbytes, length_encodeFrame]
    omega
  have hwhole := (steps_add 1 hsteps).trans ((steps_one _).trans hlast)
  rw [← hsplit, hinstr] at hwhole
  exact ⟨_, hwhole, by simp, rfl⟩

end Sys2Proof
end

