-- ==== Sys2Proof/Proofs/Decoder.lean ====
section
/-! PROOFS. The Data-Block Decoder (42): what its loop accumulates and puts out, against the elements of the payload; O25 and
O28 to O30. -/

namespace Sys2Proof

open Sys2Proof.Machine Sys2Proof.Safety Sys2Proof.Laws

/-! ### The accumulator -/

/-- How many bytes the value buffer takes: bytes come in pairs (42 R170). -/
abbrev capacity (p : Params) : Nat := 2 * (p.maxValueSize / 2)

/-- What holds of the accumulator between groups: whole pairs that fit, and never empty once an address is held. -/
structure AccumulatorOk (s : State) : Prop where
  canonical : s.dec.val.wf
  even      : s.dec.size % 2 = 0
  fits      : s.dec.size ≤ capacity s.params
  nonempty  : s.dec.addrValid = true → s.dec.size ≠ 0

theorem length_curValue (s : State) : (curValue s).length = s.dec.size := Memory.length_readN _ _ _

theorem curValue_of_empty {s : State} (h : s.dec.size = 0) : curValue s = [] :=
  List.eq_nil_of_length_eq_zero (by rw [length_curValue, h])

/-- There is room exactly while the next pair fits (42 R170). -/
theorem room_iff {s : State} (heven : s.dec.size % 2 = 0) (hfits : s.dec.size ≤ capacity s.params) :
    s.dec.size < s.params.maxValueSize - 1 ↔ s.dec.size + 2 ≤ capacity s.params := by
  unfold capacity at *
  omega

/-- The append takes the two bytes as far as the buffer goes. -/
theorem curValue_appendValue {s : State} (hval : s.dec.val.wf) (heven : s.dec.size % 2 = 0)
    (hfits : s.dec.size ≤ capacity s.params) (v0 v1 : Byte) :
    curValue (appendValue v0 v1 s) = (curValue s ++ [v0, v1]).take (capacity s.params) := by
  have hlen := length_curValue s
  by_cases h : s.dec.size < s.params.maxValueSize - 1
  · have hroom := (room_iff heven hfits).mp h
    rw [curValue_appendValue_of_room hval h, List.take_of_length_le (by simp [hlen]; omega)]
  · have hfull : (curValue s).length = capacity s.params := by
      have := mt (room_iff heven hfits).mpr h
      unfold capacity at *
      omega
    rw [appendValue_of_full h, ← hfull, List.take_left]

/-- With a buffer of at least 2 bytes an append leaves the accumulator in order, and not empty. -/
theorem accumulatorOk_appendValue {s : State} (hmax : 2 ≤ s.params.maxValueSize) (hval : s.dec.val.wf)
    (heven : s.dec.size % 2 = 0) (hfits : s.dec.size ≤ capacity s.params) (v0 v1 : Byte) :
    AccumulatorOk (appendValue v0 v1 s) := by
  by_cases h : s.dec.size < s.params.maxValueSize - 1
  · have hroom := (room_iff heven hfits).mp h
    rw [appendValue_of_room h]
    exact ⟨Memory.wf_write _ _ (Memory.wf_write _ _ hval), by simpa using heven, hroom, fun _ => by simp⟩
  · rw [appendValue_of_full h]
    exact ⟨hval, heven, hfits, fun _ => by omega⟩

/-! ### The flush -/

theorem flush_dec (s : State) : (flush s).dec = { s.dec with size := 0 } := by
  cases hvalid : s.dec.addrValid with
  | true => rw [flush_valid hvalid]
  | false => rw [flush_invalid hvalid]

theorem flushNonempty_dec (s : State) : (flushNonempty s).dec = { s.dec with size := 0 } := by
  unfold flushNonempty
  split
  · exact flush_dec s
  · rename_i hempty
    rw [← not_not.mp hempty]

/-- The events that the element being accumulated will give, once the continuation groups in front of `gs` are in. -/
def pendingEvents (s : State) (gs : List Group) : List Event :=
  if s.dec.addrValid then
    elementEvents s.params { addr := s.dec.addr, bytes :=
      (curValue s ++ valueBytes (gs.takeWhile Group.isContinuation)).take (capacity s.params) }
  else []

theorem pendingEvents_of_no_continuation {s : State} (h : AccumulatorOk s) {gs : List Group}
    (hgs : gs.takeWhile Group.isContinuation = []) : pendingEvents s gs =
      if s.dec.addrValid then elementEvents s.params { addr := s.dec.addr, bytes := curValue s } else [] := by
  have hbytes : (curValue s ++ valueBytes []).take (capacity s.params) = curValue s := by
    rw [valueBytes, List.flatMap_nil, List.append_nil, List.take_of_length_le (by rw [length_curValue]; exact h.fits)]
  rw [pendingEvents, hgs, hbytes]

/-- A flush puts out the pending element if there is one (42 R168, R172, R173). -/
theorem flushNonempty_trace {s : State} (h : AccumulatorOk s) {gs : List Group}
    (hgs : gs.takeWhile Group.isContinuation = []) : (flushNonempty s).trace = s.trace ++ pendingEvents s gs := by
  rw [pendingEvents_of_no_continuation h hgs, flushNonempty]
  cases hvalid : s.dec.addrValid with
  | true => rw [if_pos (h.nonempty hvalid), flush_valid hvalid, if_pos rfl]
  | false =>
    rw [if_neg Bool.false_ne_true, List.append_nil]
    split
    · rw [flush_invalid hvalid]
    · rfl

/-! ### One group -/

/-- A step of the loop keeps the parameters. -/
theorem stepGroup_params (s : State) (g : Group) : (stepGroup s g).params = s.params :=
  params_of_decoderOnly (decoderOnly_stepGroup g s)

theorem accumulatorOk_advanceGroup {s : State} (h : AccumulatorOk s) : AccumulatorOk (advanceGroup s) :=
  ⟨h.canonical, h.even, h.fits, h.nonempty⟩

/-- The state of a real-address group before its append: the pending element flushed, the address taken (42 R168, R169). -/
def openElement (a : Addr) (s : State) : State :=
  { flushNonempty s with dec := { (flushNonempty s).dec with addr := a, addrValid := true } }

theorem openElement_dec (a : Addr) (s : State) :
    (openElement a s).dec = { s.dec with size := 0, addr := a, addrValid := true } := by
  rw [openElement, flushNonempty_dec]

theorem openElement_params (a : Addr) (s : State) : (openElement a s).params = s.params :=
  params_of_decoderOnly (t := flushNonempty s) (decoderOnly_flushNonempty s)

theorem accumulatorOk_stepGroup {s : State} (hmax : 2 ≤ s.params.maxValueSize) (h : AccumulatorOk s) (g : Group) :
    AccumulatorOk (stepGroup s g) := by
  cases hg : g.isContinuation with
  | true =>
    rw [stepGroup_continuation hg]
    exact accumulatorOk_advanceGroup (accumulatorOk_appendValue hmax h.canonical h.even h.fits _ _)
  | false =>
    rw [stepGroup_real hg]
    refine accumulatorOk_advanceGroup (accumulatorOk_appendValue (s := openElement g.addr s) ?_ ?_ ?_ ?_ _ _)
    · rwa [openElement_params]
    · rw [openElement_dec]; exact h.canonical
    · rw [openElement_dec]; rfl
    · rw [openElement_dec]; exact Nat.zero_le _

theorem accumulatorOk_foldl {s : State} (hmax : 2 ≤ s.params.maxValueSize) (h : AccumulatorOk s) (gs : List Group) :
    AccumulatorOk (gs.foldl stepGroup s) := by
  induction gs generalizing s with
  | nil => exact h
  | cons g gs ih => exact ih (by rwa [stepGroup_params]) (accumulatorOk_stepGroup hmax h g)

theorem accumulatorOk_decodeStart {s : State} (h : s.dec.val.wf) : AccumulatorOk (decodeStart s) :=
  ⟨h, rfl, Nat.zero_le _, fun hvalid => by cases hvalid⟩

/-! ### The events of a run of groups -/

/-- What is cut off at `n` may be cut off before more is appended. -/
theorem take_take_append {α : Type} (n : Nat) (as bs : List α) : (as.take n ++ bs).take n = (as ++ bs).take n := by
  rw [List.take_append, List.take_append, List.take_take, Nat.min_self, List.length_take]
  congr 2
  omega

/-- The append leaves trace and parameters, and the element's address. -/
theorem appendValue_keeps (v0 v1 : Byte) (s : State) :
    (appendValue v0 v1 s).trace = s.trace ∧ (appendValue v0 v1 s).params = s.params ∧
    (appendValue v0 v1 s).dec.addr = s.dec.addr ∧ (appendValue v0 v1 s).dec.addrValid = s.dec.addrValid := by
  rw [appendValue_frame]
  exact ⟨rfl, rfl, rfl, rfl⟩

/-- Appending a pair is as having it in front of the continuation groups to come. -/
theorem pendingEvents_appendValue {s : State} (hval : s.dec.val.wf) (heven : s.dec.size % 2 = 0)
    (hfits : s.dec.size ≤ capacity s.params) (v0 v1 : Byte) (gs : List Group) :
    pendingEvents (advanceGroup (appendValue v0 v1 s)) gs =
      if s.dec.addrValid then
        elementEvents s.params { addr := s.dec.addr, bytes :=
          (curValue s ++ v0 :: v1 :: valueBytes (gs.takeWhile Group.isContinuation)).take (capacity s.params) }
      else [] := by
  obtain ⟨_, hparams, haddr, hvalid⟩ := appendValue_keeps v0 v1 s
  have hcur : curValue (advanceGroup (appendValue v0 v1 s)) = (curValue s ++ [v0, v1]).take (capacity s.params) :=
    curValue_appendValue hval heven hfits v0 v1
  unfold pendingEvents
  rw [hcur]
  simp only [advanceGroup, hparams, haddr, hvalid, take_take_append, List.append_assoc, List.cons_append, List.nil_append]

/-- A continuation group puts out nothing; its bytes were counted as pending before (42 R170). -/
theorem stepGroup_continuation_events {s : State} (h : AccumulatorOk s) {g : Group} (hg : g.isContinuation = true)
    (gs : List Group) : (stepGroup s g).trace = s.trace ∧ pendingEvents (stepGroup s g) gs = pendingEvents s (g :: gs) := by
  rw [stepGroup_continuation hg]
  refine ⟨(appendValue_keeps _ _ s).1, ?_⟩
  rw [pendingEvents_appendValue h.canonical h.even h.fits, pendingEvents, List.takeWhile_cons_of_pos hg]
  rfl

/-- A real-address group puts out the pending element and leaves its own pending (42 R168 to R170). -/
theorem stepGroup_real_events {s : State} (h : AccumulatorOk s) {g : Group} (hg : g.isContinuation = false)
    (gs : List Group) : (stepGroup s g).trace = s.trace ++ pendingEvents s (g :: gs) ∧
      pendingEvents (stepGroup s g) gs = elementEvents s.params (elementAt s.params.maxValueSize g gs) := by
  have hnone : (g :: gs).takeWhile Group.isContinuation = [] := List.takeWhile_cons_of_neg (by simp [hg])
  have hdec := openElement_dec g.addr s
  have hparams := openElement_params g.addr s
  have hcur : curValue (openElement g.addr s) = [] := curValue_of_empty (by rw [hdec])
  rw [stepGroup_real hg]
  constructor
  · exact (appendValue_keeps _ _ (openElement g.addr s)).1.trans (flushNonempty_trace h hnone)
  · refine (pendingEvents_appendValue (s := openElement g.addr s) ?_ ?_ ?_ _ _ gs).trans ?_
    · rw [hdec]; exact h.canonical
    · rw [hdec]; rfl
    · rw [hdec]; exact Nat.zero_le _
    · rw [hcur, hparams, hdec]; rfl

/-- A run of groups and the flush behind it put out the pending element, then the elements of the groups (42 R175). -/
theorem foldl_stepGroup_trace {s : State} (hmax : 2 ≤ s.params.maxValueSize) (h : AccumulatorOk s) (gs : List Group) :
    (flushNonempty (gs.foldl stepGroup s)).trace =
      s.trace ++ pendingEvents s gs ++ (elementsOf s.params.maxValueSize gs).flatMap (elementEvents s.params) := by
  induction gs generalizing s with
  | nil => rw [List.foldl_nil, flushNonempty_trace h (gs := []) rfl, elementsOf, List.flatMap_nil, List.append_nil]
  | cons g gs ih =>
    have hparams := stepGroup_params s g
    rw [List.foldl_cons, ih (by rwa [hparams]) (accumulatorOk_stepGroup hmax h g), hparams, elementsOf]
    cases hg : g.isContinuation with
    | true =>
      obtain ⟨htrace, hpending⟩ := stepGroup_continuation_events h hg gs
      rw [htrace, hpending]
      rfl
    | false =>
      obtain ⟨htrace, hpending⟩ := stepGroup_real_events h hg gs
      rw [htrace, hpending]
      simp

/-- A decode puts out the events of the payload's elements (42 R175). -/
theorem decodeElements_trace {s : State} (hmax : 2 ≤ s.params.maxValueSize) (hval : s.dec.val.wf) (payload : List Byte) :
    (decodeElements payload s).trace = s.trace ++ decodeEvents s.params payload := by
  rw [decodeElements_eq, foldl_stepGroup_trace (s := decodeStart s) hmax (accumulatorOk_decodeStart hval)]
  exact congrArg (· ++ _) (List.append_nil s.trace)

/-! ### The value buffer -/

/-- An append leaves every byte of `cur_val` past the accumulated size. -/
theorem read_appendValue_of_size_le {s : State} (hval : s.dec.val.wf) {v0 v1 : Byte} {a : Nat}
    (ha : (appendValue v0 v1 s).dec.size ≤ a) : (appendValue v0 v1 s).dec.val.read a = s.dec.val.read a := by
  by_cases h : s.dec.size < s.params.maxValueSize - 1
  · have hsize : s.dec.size + 2 ≤ a := by rwa [appendValue_of_room h] at ha
    exact read_appendValue_of_ne hval (by omega) (by omega) v0 v1
  · rw [appendValue_of_full h]

theorem wf_appendValue {s : State} (hval : s.dec.val.wf) (v0 v1 : Byte) : (appendValue v0 v1 s).dec.val.wf := by
  by_cases h : s.dec.size < s.params.maxValueSize - 1
  · rw [appendValue_of_room h]; exact Memory.wf_write _ _ (Memory.wf_write _ _ hval)
  · rwa [appendValue_of_full h]

/-- One group writes `cur_val` below the size it leaves. -/
theorem stepGroup_val {s : State} (hval : s.dec.val.wf) (g : Group) : (stepGroup s g).dec.val.wf ∧
    ∀ a, (stepGroup s g).dec.size ≤ a → (stepGroup s g).dec.val.read a = s.dec.val.read a := by
  cases hg : g.isContinuation with
  | true =>
    rw [stepGroup_continuation hg]
    exact ⟨wf_appendValue hval _ _, fun _ => read_appendValue_of_size_le hval⟩
  | false =>
    have hsame : (openElement g.addr s).dec.val = s.dec.val := by rw [openElement_dec]
    rw [stepGroup_real hg]
    refine ⟨wf_appendValue (s := openElement g.addr s) (hsame ▸ hval) _ _, fun a ha => ?_⟩
    exact (read_appendValue_of_size_le (s := openElement g.addr s) (hsame ▸ hval) ha).trans (by rw [hsame])

/-- A run of groups leaves every byte of `cur_val` past all the sizes accumulated on the way. -/
theorem foldl_stepGroup_val {s : State} (hval : s.dec.val.wf) (gs : List Group) : (gs.foldl stepGroup s).dec.val.wf ∧
    ∀ a, (∀ k, ((gs.take k).foldl stepGroup s).dec.size ≤ a) → (gs.foldl stepGroup s).dec.val.read a = s.dec.val.read a := by
  induction gs generalizing s with
  | nil => exact ⟨hval, fun _ _ => rfl⟩
  | cons g gs ih =>
    obtain ⟨hgroup, hread⟩ := stepGroup_val hval g
    obtain ⟨hwf, hrest⟩ := ih hgroup
    refine ⟨hwf, fun a ha => ?_⟩
    have hfirst : (stepGroup s g).dec.size ≤ a := ha 1
    exact (hrest a fun k => ha (k + 1)).trans (hread a hfirst)

/-- The loop from the start of a decode, by its groups (42 R171). -/
theorem groupLoop_decodeStart (payload : List Byte) (fuel : Nat) (s : State) :
    groupLoop payload fuel (decodeStart s) = ((groupsOf payload).take fuel).foldl stepGroup (decodeStart s) :=
  groupLoop_eq payload fuel (decodeStart s)

theorem decodeElements_val {s : State} (hval : s.dec.val.wf) (payload : List Byte) :
    (decodeElements payload s).dec.val.wf ∧
    ∀ a, (∀ fuel, (groupLoop payload fuel (decodeStart s)).dec.size ≤ a) →
      (decodeElements payload s).dec.val.read a = s.dec.val.read a := by
  obtain ⟨hwf, hread⟩ := foldl_stepGroup_val (s := decodeStart s) hval (groupsOf payload)
  rw [decodeElements_eq, flushNonempty_dec]
  exact ⟨hwf, fun a ha => hread a fun k => by rw [← groupLoop_decodeStart]; exact ha k⟩

/-! ### The two data commands -/

/-- DATABLOCK and READDATA, whole (44 R202, R203). -/
theorem handleData_eq {s : State} (hmax : 2 ≤ s.params.maxValueSize) (hval : s.dec.val.wf) (payload : List Byte) :
    handleData payload s = { s with
      dec := (decodeElements payload (sendAck s)).dec
      flags := { s.flags with handled := true }
      trace := s.trace ++ .tx [Config.ackByte] :: decodeEvents s.params payload } := by
  have htrace := decodeElements_trace (s := sendAck s) hmax hval payload
  obtain ⟨d, evs, heq, _⟩ := decoderOnly_decodeElements payload (sendAck s)
  rw [heq] at htrace
  have htrace : s.trace ++ [.tx [Config.ackByte]] ++ evs =
    s.trace ++ [.tx [Config.ackByte]] ++ decodeEvents s.params payload := htrace
  rw [handleData, heq, sendAck_eq, htrace, List.append_assoc]
  rfl

/-- Settles O25: the loop puts out the payload's elements, by induction over its groups with the element in the accumulator
counted as pending. -/
theorem dataFramesStoreTheirElements : Obligations.DataFramesStoreTheirElements := by
  unfold Obligations.DataFramesStoreTheirElements
  intro s payload hp hval
  obtain ⟨_, _, _, hmax⟩ := hp
  have heq := handleData_eq hmax hval payload
  obtain ⟨hwf, hread⟩ := decodeElements_val (s := sendAck s) hval payload
  exact ⟨_, congrArg Host.Outcome.next heq, congrArg Host.Outcome.next heq, decodeElements_size payload _,
    decodeElements_pos payload _, hwf, hread⟩

/-! ### The elements of a payload -/

theorem length_valueBytes (gs : List Group) : (valueBytes gs).length = 2 * gs.length := by
  induction gs with
  | nil => rfl
  | cons g gs ih =>
    have hcons : valueBytes (g :: gs) = g.v0 :: g.v1 :: valueBytes gs := rfl
    rw [hcons, List.length_cons, List.length_cons, ih, List.length_cons]
    omega

/-- The size of an element is even, at least 2 and within the value buffer (42 R175 b). -/
theorem length_elementAt {m : Nat} (hm : 2 ≤ m) (g : Group) (behind : List Group) :
    (elementAt m g behind).bytes.length % 2 = 0 ∧ 2 ≤ (elementAt m g behind).bytes.length ∧
      (elementAt m g behind).bytes.length ≤ m := by
  rw [elementAt, List.length_take, length_valueBytes, List.length_cons]
  omega

/-- An element starts at a group with a real address. -/
theorem mem_elementsOf {m : Nat} {gs : List Group} {e : Element} (h : e ∈ elementsOf m gs) :
    ∃ g behind, g.isContinuation = false ∧ e = elementAt m g behind := by
  induction gs with
  | nil => cases h
  | cons g gs ih =>
    rw [elementsOf] at h
    split at h
    · exact ih h
    · rename_i hg
      rcases List.mem_cons.mp h with rfl | h
      · exact ⟨g, gs, Bool.eq_false_iff.mpr hg, rfl⟩
      · exact ih h

/-- What an element of a payload looks like (42 R175 b). -/
theorem elementsOf_ok {m : Nat} (hm : 2 ≤ m) {gs : List Group} {e : Element} (h : e ∈ elementsOf m gs) :
    e.addr ≠ Config.sentinelAddr ∧ e.bytes.length % 2 = 0 ∧ 2 ≤ e.bytes.length ∧ e.bytes.length ≤ m := by
  obtain ⟨g, behind, hg, rfl⟩ := mem_elementsOf h
  exact ⟨of_decide_eq_false hg, length_elementAt hm g behind⟩

/-- One element per real-address group, in order (42 R175 c, e). -/
theorem map_addr_elementsOf (m : Nat) (gs : List Group) :
    (elementsOf m gs).map Element.addr = (gs.filter fun g => !g.isContinuation).map Group.addr := by
  induction gs with
  | nil => rfl
  | cons g gs ih =>
    rw [elementsOf]
    cases hg : g.isContinuation with
    | true => simpa [hg] using ih
    | false => simpa [hg] using ⟨rfl, ih⟩

/-- The address of a store write. -/
def setAddr? : Event → Option Addr
  | .set a _ _ => some a
  | _ => none

theorem setAddrs_of_elements (p : Params) (es : List Element) :
    (es.flatMap (elementEvents p)).filterMap setAddr? = es.map Element.addr := by
  induction es with
  | nil => rfl
  | cons e es ih =>
    rw [List.flatMap_cons, List.filterMap_append, ih, elementEvents]
    split <;> rfl

theorem mem_decodeEvents {p : Params} {payload : List Byte} {ev : Event} (h : ev ∈ decodeEvents p payload) :
    ∃ e ∈ elementsOf p.maxValueSize (groupsOf payload),
      ev = .set e.addr e.bytes e.bytes.length ∨ ev = .fwdV e.addr e.bytes e.bytes.length := by
  obtain ⟨e, he, hev⟩ := List.mem_flatMap.mp h
  refine ⟨e, he, ?_⟩
  unfold elementEvents at hev
  split at hev
  · simpa using hev
  · exact .inl (List.mem_singleton.mp hev)

/-- Settles O28: the accumulator's invariant bounds the size, and the events are those of the payload's elements. -/
theorem decodedElementsAreWellFormed : Obligations.DecodedElementsAreWellFormed := by
  unfold Obligations.DecodedElementsAreWellFormed
  intro s payload hp hval
  obtain ⟨_, _, _, hmax⟩ := hp
  refine ⟨fun fuel => ?_, decodeEvents s.params payload, decodeElements_trace hmax hval payload, ?_, fun a bytes n hset => ?_⟩
  · rw [groupLoop_decodeStart]
    have hok := accumulatorOk_foldl (s := decodeStart s) hmax (accumulatorOk_decodeStart hval) ((groupsOf payload).take fuel)
    have hparams := params_of_decoderOnly (decoderOnly_foldl ((groupsOf payload).take fuel) (decodeStart s))
    have hfits := hok.fits
    rw [hparams] at hfits
    exact ⟨hok.even, hfits.trans (Nat.mul_div_le _ 2)⟩
  · exact (setAddrs_of_elements _ _).trans (map_addr_elementsOf _ _)
  · obtain ⟨e, he, heq | heq⟩ := mem_decodeEvents hset
    · cases heq
      obtain ⟨haddr, heven, hmin, hfits⟩ := elementsOf_ok hmax he
      exact ⟨haddr, rfl, by omega⟩
    · cases heq

/-- Settles O29: a continuation group in front starts no element, so the elements of the payload are the same. -/
theorem orphanContinuationsAreIgnored : Obligations.OrphanContinuationsAreIgnored := by
  unfold Obligations.OrphanContinuationsAreIgnored
  intro s t u v0 v1 payload hp hval ht hu
  obtain ⟨_, _, _, hmax⟩ := hp
  have hsame : decodeEvents s.params (0xFF :: 0xFF :: v0 :: v1 :: payload) = decodeEvents s.params payload := rfl
  have ht : handleData (0xFF :: 0xFF :: v0 :: v1 :: payload) s = t := Host.Outcome.next.inj ht
  have hu : handleData payload s = u := Host.Outcome.next.inj hu
  rw [← ht, ← hu, handleData_eq hmax hval, handleData_eq hmax hval, hsame]
  exact ⟨rfl, rfl⟩

/-! ### Trailing bytes -/

/-- Bytes behind the last complete group make no group (42 R171). -/
theorem groupsOf_take_complete : ∀ payload : List Byte, groupsOf (payload.take (4 * (payload.length / 4))) = groupsOf payload
  | [] => rfl
  | [_] => by simp [groupsOf]
  | [_, _] => by simp [groupsOf]
  | [_, _, _] => by simp [groupsOf]
  | hi :: lo :: v0 :: v1 :: rest => by
    have hcount : 4 * ((hi :: lo :: v0 :: v1 :: rest).length / 4) = 4 * (rest.length / 4) + 4 := by
      simp only [List.length_cons]
      omega
    rw [hcount, List.take_succ_cons, List.take_succ_cons, List.take_succ_cons, List.take_succ_cons, groupsOf,
      groupsOf_take_complete rest, groupsOf]

/-- Settles O30: a decode looks at the groups of its payload only. -/
theorem trailingBytesAreIgnored : Obligations.TrailingBytesAreIgnored := by
  unfold Obligations.TrailingBytesAreIgnored
  intro s payload
  have hsame : handleData payload s = handleData (payload.take (4 * (payload.length / 4))) s := by
    rw [handleData, handleData, decodeElements_eq, decodeElements_eq, groupsOf_take_complete]
  exact congrArg Host.Outcome.next hsame

end Sys2Proof
end

