-- ==== Sys2Proof/Proofs/Requests.lean ====
section
/-! PROOFS. The Request Builder (43) and the two commands that answer with a request (44 R204, R205); O31 to O36. -/

namespace Sys2Proof

open Sys2Proof.Machine Sys2Proof.Safety Sys2Proof.Laws

/-! ### Acquiring an entry (43 R186, R187) -/

section Acquiring

variable {kind : StoreKind} {s : State}

theorem acquire_of_none (h : expiredAnswer kind s = none) :
    acquired kind s = .failed (.noPending kind) ∧ acquire kind s = callExpired kind s := by
  rw [acquired, acquire, h]
  exact ⟨rfl, rfl⟩

theorem acquire_of_some {index : Nat} (h : expiredAnswer kind s = some index) :
    acquire kind s = callElement index (callExpired kind s) := by
  rw [acquire, h]

theorem acquired_of_missing {index : Nat} (h : expiredAnswer kind s = some index)
    (he : elementAnswer index (callExpired kind s) = none) : acquired kind s = .failed (.missingElement index) := by
  simp only [acquired, h, he]

theorem acquired_of_element {index : Nat} {e : IoElement} (h : expiredAnswer kind s = some index)
    (he : elementAnswer index (callExpired kind s) = some e) : acquired kind s = .entry index e := by
  simp only [acquired, h, he]

end Acquiring

/-- The dispatch result has no part in acquiring. -/
theorem acquired_setHandled (kind : StoreKind) (v : Bool) (s : State) : acquired kind (setHandled v s) = acquired kind s := rfl

theorem acquire_setHandled (kind : StoreKind) (v : Bool) (s : State) :
    acquire kind (setHandled v s) = setHandled v (acquire kind s) := by
  unfold acquire
  have hsame : expiredAnswer kind (setHandled v s) = expiredAnswer kind s := rfl
  rw [hsame]
  cases expiredAnswer kind s <;> rfl

/-! ### Staging and sending (43 R188, R189, R194) -/

/-- What is staged reads back, and the rest of `txbuf` is left alone. -/
theorem read_staged {m : Memory} (hm : m.wf) (data : List Byte) :
    (m.writeN 0 data).readN 0 data.length = data ∧ ∀ a, data.length ≤ a → (m.writeN 0 data).read a = m.read a :=
  ⟨Memory.readN_writeN hm 0 data, fun a ha => by rw [Memory.read_writeN hm, if_neg (by omega)]⟩

/-- The read request in every state with a canonical `txbuf` (43 R188, R194). -/
theorem sendReadRequest_eq {s : State} (hbuf : s.tx.buf.wf) (ident : Addr) : sendReadRequest ident s = { s with
    tx := { node := s.params.nodeIdTx, cmd := s.params.cmdReadreq, len := 2, buf := s.tx.buf.writeN 0 (requestData ident []) }
    trace := s.trace ++ requestEvents s.params (requestFrame s.params s.params.cmdReadreq (requestData ident [])) } :=
  sendStaged_stageRequest hbuf s.params.cmdReadreq (by simp)

/-- The write request wherever it fits (43 R189, R194). -/
theorem sendWriteRequest_eq {s : State} (hbuf : s.tx.buf.wf) (ident : Addr) {value : List Byte}
    (hfit : 2 + value.length ≤ 255) : sendWriteRequest ident value s = { s with
      tx := { node := s.params.nodeIdTx, cmd := s.params.cmdWritereq, len := BitVec.ofNat 8 (2 + value.length),
              buf := s.tx.buf.writeN 0 (requestData ident value) }
      trace := s.trace ++ requestEvents s.params (requestFrame s.params s.params.cmdWritereq (requestData ident value)) } := by
  rw [← length_requestData ident value] at hfit ⊢
  exact sendStaged_stageRequest hbuf s.params.cmdWritereq hfit

/-- Settles O34: staging in a canonical `txbuf`, and the frame's bytes as O9 writes them out. -/
theorem readRequestMessageBytes : Obligations.ReadRequestMessageBytes := by
  unfold Obligations.ReadRequestMessageBytes
  intro s ident hbuf
  obtain ⟨hdata, hrest⟩ := read_staged hbuf (requestData ident [])
  refine ⟨identLow ident, identHigh ident, _, toNat_identLow ident, toNat_identHigh ident, ?_, hdata, hrest⟩
  rw [← readRequest_bytes]
  exact congrArg Host.Outcome.next (sendReadRequest_eq hbuf ident)

theorem tooLong_eq_false {size : Nat} {s : State} (h : 2 + size ≤ s.params.maxData) : tooLong size s = false :=
  decide_eq_false (by omega)

theorem tooLong_eq_true {size : Nat} {s : State} (h : s.params.maxData < 2 + size) : tooLong size s = true :=
  decide_eq_true h

/-- Settles O35: the length bound passes, then as for the read request. -/
theorem writeRequestMessageBytes : Obligations.WriteRequestMessageBytes := by
  unfold Obligations.WriteRequestMessageBytes
  intro s ident value hbuf hmax hfit
  obtain ⟨hdata, hrest⟩ := read_staged hbuf (requestData ident value)
  rw [length_requestData] at hdata hrest
  refine ⟨identLow ident, identHigh ident, BitVec.ofNat 8 (2 + value.length), _, toNat_identLow ident, toNat_identHigh ident,
    toNat_ofNat_of_le (hfit.trans hmax), ?_, hdata, hrest⟩
  rw [← writeRequest_bytes, exec, execTxWritereq, tooLong_eq_false hfit]
  exact congrArg Host.Outcome.next (sendWriteRequest_eq hbuf ident (hfit.trans hmax))

/-- Settles O36: the length bound fails, so nothing is staged. -/
theorem tooLongRequestFallsBackToAck : Obligations.TooLongRequestFallsBackToAck := by
  unfold Obligations.TooLongRequestFallsBackToAck
  intro s ident value hlong
  rw [exec, execTxWritereq, tooLong_eq_true hlong]
  rfl

/-! ### READREQ (44 R204) -/

theorem exec_readreq_of_failed {s : State} {c : Condition} (h : acquired .read s = .failed c) (payload : List Byte) :
    exec (.readreq payload) s = .next (fallBackToAck c (setHandled true (acquire .read s))) := by
  rw [exec, execReadreq, answerReadreq, acquired_setHandled, h, acquire_setHandled]

theorem exec_readreq_of_entry {s : State} {index : Nat} {e : IoElement} (h : acquired .read s = .entry index e)
    (payload : List Byte) :
    exec (.readreq payload) s = .next (sendReadRequest e.identifier (setHandled true (acquire .read s))) := by
  rw [exec, execReadreq, answerReadreq, acquired_setHandled, h, acquire_setHandled]

/-- Settles O31, by the answers of the store: each failure falls back to ACK, and an entry is requested. -/
theorem readreqAnswersByStore : Obligations.ReadreqAnswersByStore := by
  unfold Obligations.ReadreqAnswersByStore
  intro s payload got s1
  refine ⟨fun hgot => ?none, fun index hgot => ⟨fun hmissing => ?missing, fun e he hbuf => ?element⟩⟩
  case none =>
    have hgot : expiredAnswer .read s = none := hgot
    obtain ⟨hfailed, hacquire⟩ := acquire_of_none hgot
    rw [exec_readreq_of_failed hfailed, hacquire, fallBackToAck_eq]
    simp [s1, hgot, Condition.cond]
  case missing =>
    have hgot : expiredAnswer .read s = some index := hgot
    rw [exec_readreq_of_failed (acquired_of_missing hgot hmissing), acquire_of_some hgot, fallBackToAck_eq]
    simp [s1, hgot, hmissing, Condition.cond]
  case element =>
    have hgot : expiredAnswer .read s = some index := hgot
    obtain ⟨hdata, hrest⟩ := read_staged hbuf (requestData e.identifier [])
    refine ⟨_, ?_, hdata, hrest⟩
    rw [exec_readreq_of_entry (acquired_of_element hgot he), acquire_of_some hgot,
      sendReadRequest_eq (s := setHandled true (callElement index s1)) hbuf]
    simp [s1, hgot, he, requestData]

/-! ### WRITEREQ (44 R205) -/

theorem exec_writereq_of_failed {s : State} {c : Condition} (h : acquired .readWrite s = .failed c)
    (payload : List Byte) :
    exec (.writereq payload) s = .next (fallBackToAck c (setHandled true (acquire .readWrite s))) := by
  rw [exec, execWritereq, answerWritereq, acquired_setHandled, h, acquire_setHandled]

theorem exec_writereq_of_entry {s : State} {index : Nat} {e : IoElement} (h : acquired .readWrite s = .entry index e)
    (payload : List Byte) : exec (.writereq payload) s =
      writeEntry index (sizeAnswer index (acquire .readWrite s)) e
        (setHandled true (callSize index (acquire .readWrite s))) := by
  rw [exec, execWritereq, answerWritereq, acquired_setHandled, h, acquire_setHandled]
  rfl

section WriteEntry

variable {index size : Nat} {e : IoElement} {s : State}

theorem writeEntry_of_tooLong (h : s.params.maxData < 2 + size) :
    writeEntry index size e s = .next (fallBackToAck (.reqTooLong (some index) size) s) := by
  rw [writeEntry, tooLong_eq_true h, if_pos rfl]

theorem writeEntry_of_contract_broken (hfit : 2 + size ≤ s.params.maxData) (h : e.value.length < size) :
    writeEntry index size e s = .refused (.storeContract index size e.value.length) := by
  rw [writeEntry, tooLong_eq_false hfit, if_neg Bool.false_ne_true, if_pos h]

theorem writeEntry_of_fits (hfit : 2 + size ≤ s.params.maxData) (h : size ≤ e.value.length) :
    writeEntry index size e s = .next (sendWriteRequest e.identifier (e.value.take size) s) := by
  rw [writeEntry, tooLong_eq_false hfit, if_neg Bool.false_ne_true, if_neg (Nat.not_lt.mpr h)]

end WriteEntry

/-- Settles O32, by the answers of the store. -/
theorem writereqAnswersByStore : Obligations.WritereqAnswersByStore := by
  unfold Obligations.WritereqAnswersByStore
  intro s payload got s1
  refine ⟨fun hgot => ?none, fun index hgot => ⟨fun hmissing => ?missing, fun e he => ⟨fun hlong => ?tooLong,
    fun hfit hheld hmax hbuf => ?element⟩⟩⟩
  case none =>
    have hgot : expiredAnswer .readWrite s = none := hgot
    obtain ⟨hfailed, hacquire⟩ := acquire_of_none hgot
    rw [exec_writereq_of_failed hfailed, hacquire, fallBackToAck_eq]
    simp [s1, hgot, Condition.cond]
  case missing =>
    have hgot : expiredAnswer .readWrite s = some index := hgot
    rw [exec_writereq_of_failed (acquired_of_missing hgot hmissing), acquire_of_some hgot, fallBackToAck_eq]
    simp [s1, hgot, hmissing, Condition.cond]
  case tooLong =>
    have hgot : expiredAnswer .readWrite s = some index := hgot
    rw [exec_writereq_of_entry (acquired_of_element hgot he), acquire_of_some hgot,
      writeEntry_of_tooLong (s := setHandled true (callSize index (callElement index s1))) hlong, fallBackToAck_eq]
    simp [s1, hgot, he, Condition.cond]
  case element =>
    have hgot : expiredAnswer .readWrite s = some index := hgot
    generalize hsize : sizeAnswer index (callElement index s1) = size at hfit hheld ⊢
    have hlen : (e.value.take size).length = size := List.length_take_of_le hheld
    obtain ⟨hdata, hrest⟩ := read_staged hbuf (requestData e.identifier (e.value.take size))
    rw [length_requestData, hlen] at hdata hrest
    refine ⟨_, ?_, hdata, hrest⟩
    rw [exec_writereq_of_entry (acquired_of_element hgot he), acquire_of_some hgot, hsize,
      writeEntry_of_fits (s := setHandled true (callSize index (callElement index s1))) hfit hheld,
      sendWriteRequest_eq (s := setHandled true (callSize index (callElement index s1))) hbuf e.identifier
        (by rw [hlen]; exact hfit.trans hmax), hlen]
    simp [s1, hgot, he, hsize, requestData]

/-- Settles O33: the request would fit, so the number of value bytes is looked at, and it is too small. -/
theorem brokenStoreContractIsRefused : Obligations.BrokenStoreContractIsRefused := by
  unfold Obligations.BrokenStoreContractIsRefused
  intro s payload index e hentry hfit hbroken
  have hparams : (setHandled true (callSize index (acquire .readWrite s))).params = s.params := by
    rw [acquire_eq]; rfl
  rw [exec_writereq_of_entry hentry, writeEntry_of_contract_broken (by rwa [hparams]) hbroken]

end Sys2Proof
end

