-- ==== Sys2Proof/Proofs/Completion.lean ====
section
/-! PROOFS. What a step puts out and how a completed frame is reported (44 R209 to R213, 60 R220 to R229), reset and rest
(70 R250 to R257); O20 to O24, O26, O37 and O39 to O42. -/

namespace Sys2Proof

open Sys2Proof.Machine Sys2Proof.Safety Sys2Proof.Laws

/-! ### Small operations -/

/-- Settles O37: the three commands are `handleUnhandled`, whatever the byte. -/
theorem unhandledCommandsAreAcknowledged : Obligations.UnhandledCommandsAreAcknowledged := by
  unfold Obligations.UnhandledCommandsAreAcknowledged
  intro s payload command
  exact ⟨congrArg Host.Outcome.next (handleUnhandled_eq Config.ackByte s),
    congrArg Host.Outcome.next (handleUnhandled_eq Config.nakByte s),
    congrArg Host.Outcome.next (handleUnhandled_eq command s)⟩

/-- Settles O39: the codes by the table, and `raise` by its definition. -/
theorem conditionCodes : Obligations.ConditionCodes := by
  unfold Obligations.ConditionCodes
  exact ⟨⟨rfl, rfl, rfl, rfl, rfl, rfl, rfl⟩, fun _ _ => rfl⟩

/-- Settles O40: the start-up is the due step, and puts out the list of sentinels. -/
theorem startUpRegistersSentinels : Obligations.StartUpRegistersSentinels := by
  unfold Obligations.StartUpRegistersSentinels
  intro s hpending
  rw [step_startPending hpending, startUp_eq]

/-- Settles O41: the reset is taken as any input is, in every phase. -/
theorem resetInputGivesHunt : Obligations.ResetInputGivesHunt := by
  unfold Obligations.ResetInputGivesHunt
  intro s rest hpending hinput
  exact ⟨assertReset (s.taking rest), step_input hpending hinput, rfl, rfl, by simp, by simp, by simp, by simp⟩

/-- Settles O42: the third branch of the step. -/
theorem noInputChangesNothing : Obligations.NoInputChangesNothing := by
  unfold Obligations.NoInputChangesNothing
  intro s hpending hinput
  exact step_idle hpending hinput

/-! ### What completing a frame puts out, and the flags it leaves -/

/-- The class of the latched frame's command (44 R200). -/
abbrev latchedClass (s : State) : CommandClass := classify s.params s.rx.cmd

/-- The events in front of the status report and the flags in it, by verdict and command (44 R200 to R209). -/
inductive Completion (s : State) (b : Byte) : List Event → FlagRegs → Prop where
  | invalid (h : verdict b s = false) :
      Completion s b [.tx [Config.nakByte]] { valid := false, handled := false, cond := (invalidCondition b s).cond }
  | data (h : verdict b s = true) (hclass : latchedClass s = .datablock ∨ latchedClass s = .readdata) (evs : List Event)
      (hevs : ∀ e ∈ evs, isElementEvent e = true) :
      Completion s b (.tx [Config.ackByte] :: evs) { valid := true, handled := true, cond := .none }
  | request (h : verdict b s = true) (kind : StoreKind)
      (hclass : kind = .read ∧ latchedClass s = .readreq ∨ kind = .readWrite ∧ latchedClass s = .writereq)
      (cond : Cond)
      (hcond : cond = .none ∨ cond = .noPending ∨ cond = .missingElement ∨ kind = .readWrite ∧ cond = .reqTooLong)
      (evs : List Event) (hkinds : evs.filterMap expiredKind? = [kind]) (hstatus : evs.filterMap status? = [])
      (hsets : evs.filter isSet = []) :
      Completion s b evs { valid := true, handled := true, cond := cond }
  | unhandled (h : verdict b s = true) (hclass : CommandHandled (latchedClass s) = false) :
      Completion s b [.tx [Config.ackByte]] { valid := true, handled := false, cond := .unknownCommand }

/-- The step from `s` to `t` completes a frame: the events, then the report, back in HUNT with the flags reported. -/
structure Completed (s : State) (b : Byte) (evs : List Event) (t : State) : Prop where
  body   : Completion s b evs t.flags
  params : t.params = s.params
  phase  : t.rx.phase = .hunt
  trace  : t.trace = s.trace ++ (evs ++ [.status t.flags.valid t.flags.handled t.flags.cond])

/-- The condition that the answer to a request frame leaves (43 R195). -/
theorem cond_of_answered {kind : StoreKind} {cmd : Byte} {s v : State} (h : Answered kind cmd s v) :
    v.flags.cond = s.flags.cond ∨ v.flags.cond = .noPending ∨ v.flags.cond = .missingElement ∨
      kind = .readWrite ∧ v.flags.cond = .reqTooLong := by
  obtain ⟨st, asks, _, _, ⟨c, hc, rfl⟩ | ⟨ident, value, _, _, rfl⟩⟩ := h
  · exact .inr hc
  · rw [sendStaged_eq]
    exact .inl rfl

/-- An answered request frame, reported. -/
theorem completed_of_answered {kind : StoreKind} {cmd b : Byte} {s v : State} (hv : verdict b s = true)
    (hclass : kind = .read ∧ latchedClass s = .readreq ∨ kind = .readWrite ∧ latchedClass s = .writereq)
    (h : Answered kind cmd (setHandled true (latchVerdict b s)) v) : ∃ evs, Completed s b evs (reportStatus v) := by
  have hcond := cond_of_answered h
  obtain ⟨st, r, c, evs, rfl, hkinds, hstatus, hsets⟩ := h.frame
  have hflags : (setHandled true (latchVerdict b s)).flags = { valid := true, handled := true, cond := .none } := by
    rw [setHandled_flags, latchVerdict_flags, hv]
  refine ⟨evs, ?_, rfl, rfl, reportStatus_trace rfl⟩
  have hbody := Completion.request hv kind hclass c hcond evs hkinds hstatus hsets
  simpa [reportStatus_eq, hv] using hbody

/-- Everything that completing a frame can do (40 R131, 44 R200). -/
theorem completed_of_csumByte {b : Byte} {s t : State} (h : csumByte b s = .next t) : ∃ evs, Completed s b evs t := by
  rcases csumByte_next h with ⟨hv, _, v, hexec, rfl⟩ | ⟨hv, rfl⟩
  · rcases exec_fetchInstr hexec with ⟨hclass, rfl⟩ | ⟨hclass, rfl⟩ | ⟨hclass, hwrite⟩ | ⟨hclass, c, rfl⟩
    · obtain ⟨d, evs, heq, hevs⟩ := handleData_frame (rxPayload (latchVerdict b s)) (latchVerdict b s)
      rw [heq]
      refine ⟨_, ?_, rfl, rfl, reportStatus_trace rfl⟩
      simpa [reportStatus_eq, hv] using Completion.data hv hclass evs hevs
    · exact completed_of_answered hv (.inl ⟨rfl, hclass⟩) (answered_read _)
    · exact completed_of_answered hv (.inr ⟨rfl, hclass⟩) (answered_write hwrite)
    · refine ⟨_, ?_, rfl, rfl, reportStatus_trace (by rw [handleUnhandled_eq]; rfl)⟩
      simpa [reportStatus_eq, handleUnhandled_eq, hv] using Completion.unhandled hv hclass
  · refine ⟨_, ?_, rfl, rfl, reportStatus_trace (by rw [sendNak_eq]; rfl)⟩
    have hcond : invalidCondition b (latchVerdict b s) = invalidCondition b s := rfl
    simpa [reportStatus_eq, sendNak_eq, hv, hcond] using Completion.invalid hv

/-- Taking the byte off the input leaves what decides a completion. -/
theorem Completion.of_taking {s : State} {b : Byte} {rest : List Input} {evs : List Event} {f : FlagRegs}
    (h : Completion (s.taking rest) b evs f) : Completion s b evs f := by
  have hclass : latchedClass (s.taking rest) = latchedClass s := by rw [latchedClass, taking_params, taking_rx]
  cases h with
  | invalid h =>
    have hcond : invalidCondition b (s.taking rest) = invalidCondition b s := by
      rw [invalidCondition, taking_rx, invalidCondition]
    rw [hcond]
    exact .invalid (by rwa [← verdict_taking])
  | data h hc evs hevs => exact .data (by rwa [← verdict_taking]) (hclass ▸ hc) evs hevs
  | request h kind hc cond hcond evs hkinds hstatus hsets =>
    exact .request (by rwa [← verdict_taking]) kind (hclass ▸ hc) cond hcond _ hkinds hstatus hsets
  | unhandled h hc => exact .unhandled (by rwa [← verdict_taking]) (hclass ▸ hc)

/-- A step that completes a frame. -/
theorem completed_of_step {s t : State} {b : Byte} (h : step s = .next t) (hc : completing s = some b) :
    ∃ evs, Completed s b evs t := by
  obtain ⟨rest, hcsum⟩ := csumByte_of_completing h hc
  obtain ⟨evs, hbody, hparams, hphase, htrace⟩ := completed_of_csumByte hcsum
  exact ⟨evs, hbody.of_taking, by rwa [taking_params] at hparams, hphase, by rwa [taking_trace] at htrace⟩

/-- A step that completes no frame puts out registrations of sentinels at most (41 R157, 70 R253). -/
theorem silent_of_step {s t : State} (h : step s = .next t) (hc : completing s = none) :
    ∃ entries : List (SentinelType × Nat),
      t.trace = s.trace ++ entries.map fun entry => Event.setErr entry.1 entry.2 := by
  rcases step_of_completing_none h hc with ⟨_, rfl⟩ | ⟨htrace, _⟩
  · exact ⟨s.params.errorSentinels, by rw [startUp_eq]⟩
  · exact ⟨[], by rw [htrace, List.map_nil, List.append_nil]⟩

theorem completingValid_of_completing {s : State} {b : Byte} (h : completing s = some b) :
    completingValid s = if verdict b s then some (latchedClass s) else none := by
  rw [completingValid, h]

theorem completingValid_of_none {s : State} (h : completing s = none) : completingValid s = none := by
  rw [completingValid, h]

/-! ### Status reports, store calls and store writes among events -/

theorem status?_of_isElementEvent {e : Event} (h : isElementEvent e = true) : status? e = none := by
  cases e with
  | status v h' c => cases h
  | _ => rfl

theorem expiredKind?_of_isElementEvent {e : Event} (h : isElementEvent e = true) : expiredKind? e = none := by
  cases e with
  | getExp kind answer => cases h
  | _ => rfl

/-- The start-up's events are none that a claim counts (70 R253). -/
theorem registrations_uncounted (entries : List (SentinelType × Nat)) :
    (entries.map fun entry => Event.setErr entry.1 entry.2).filterMap status? = [] ∧
    (entries.map fun entry => Event.setErr entry.1 entry.2).filterMap expiredKind? = [] ∧
    (entries.map fun entry => Event.setErr entry.1 entry.2).filter isSet = [] := by
  induction entries with
  | nil => exact ⟨rfl, rfl, rfl⟩
  | cons entry entries ih => exact ih

/-- No report stands in front of the last one. -/
theorem Completion.no_status {s : State} {b : Byte} {evs : List Event} {f : FlagRegs} (h : Completion s b evs f) :
    evs.filterMap status? = [] := by
  cases h with
  | invalid h => rfl
  | data h hclass elements hevs =>
    have hnone : elements.filterMap status? = [] :=
      List.filterMap_eq_nil_iff.mpr fun e he => status?_of_isElementEvent (hevs e he)
    exact hnone
  | request h kind hclass cond hcond evs hkinds hstatus hsets => exact hstatus
  | unhandled h hclass => rfl

/-- What a class of valid frames asks `StoreGetExpired` for (20 R61). -/
def askedKinds : CommandClass → List StoreKind
  | .readreq => [.read]
  | .writereq => [.readWrite]
  | _ => []

theorem askedKinds_of_not_handled {c : CommandClass} (h : CommandHandled c = false) : askedKinds c = [] := by
  cases c with
  | readreq => cases h
  | writereq => cases h
  | _ => rfl

/-- The kinds asked for, by the class of a valid frame; an invalid frame asks for none. -/
theorem Completion.kinds {s : State} {b : Byte} {evs : List Event} {f : FlagRegs} (h : Completion s b evs f) :
    evs.filterMap expiredKind? = if verdict b s then askedKinds (latchedClass s) else [] := by
  cases h with
  | invalid h => rw [h]; rfl
  | data h hclass elements hevs =>
    have hnone : elements.filterMap expiredKind? = [] :=
      List.filterMap_eq_nil_iff.mpr fun e he => expiredKind?_of_isElementEvent (hevs e he)
    rw [if_pos h]
    rcases hclass with hclass | hclass <;> (rw [hclass]; exact hnone)
  | request h kind hclass cond hcond evs hkinds hstatus hsets =>
    rw [if_pos h, hkinds]
    rcases hclass with ⟨rfl, hclass⟩ | ⟨rfl, hclass⟩ <;> (rw [hclass]; rfl)
  | unhandled h hclass => rw [if_pos h, askedKinds_of_not_handled hclass]; rfl

/-- Only the data commands write the store. -/
theorem Completion.sets {s : State} {b : Byte} {evs : List Event} {f : FlagRegs} (h : Completion s b evs f)
    (hdata : ¬ (verdict b s = true ∧ (latchedClass s = .datablock ∨ latchedClass s = .readdata))) :
    evs.filter isSet = [] := by
  cases h with
  | invalid h => rfl
  | data h hclass elements hevs => exact absurd ⟨h, hclass⟩ hdata
  | request h kind hclass cond hcond evs hkinds hstatus hsets => exact hsets
  | unhandled h hclass => rfl

/-! ### The obligations about every step -/

/-- Settles O20: the report is appended to events that hold none. -/
theorem statusIsLastAndOnce : Obligations.StatusIsLastAndOnce := by
  unfold Obligations.StatusIsLastAndOnce
  intro s t hstep
  cases hc : completing s with
  | none =>
    obtain ⟨entries, htrace⟩ := silent_of_step hstep hc
    exact ⟨_, htrace, (registrations_uncounted entries).1⟩
  | some b =>
    obtain ⟨evs, hdone⟩ := completed_of_step hstep hc
    exact ⟨_, hdone.trace, hdone.phase, evs, rfl, hdone.body.no_status⟩

theorem cond_invalidCondition (b : Byte) (s : State) :
    (invalidCondition b s).cond = if s.rx.overLen then .overlength else .checksum := by
  unfold invalidCondition
  split <;> rfl

/-- A valid frame is neither over-length nor of a wrong checksum (40 R131). -/
theorem of_verdict_true {b : Byte} {s : State} (h : verdict b s = true) : s.rx.overLen = false ∧ s.rx.xor = b := by
  simpa [verdict, and_comm] using h

/-- The conditions that 44 R209 admits for a valid frame of class `c`. -/
def condAdmitted (c : CommandClass) (cond : Cond) : Prop :=
  ((c = .datablock ∨ c = .readdata) → cond = .none) ∧
  (c = .readreq → cond = .none ∨ cond = .noPending ∨ cond = .missingElement) ∧
  (c = .writereq → cond = .none ∨ cond = .noPending ∨ cond = .missingElement ∨ cond = .reqTooLong) ∧
  (CommandHandled c = false → cond = .unknownCommand)

/-- The flags of a valid frame, by its class. -/
theorem Completion.flags_of_valid {s : State} {b : Byte} {evs : List Event} {f : FlagRegs} (h : Completion s b evs f)
    (hv : verdict b s = true) :
    f.valid = true ∧ f.handled = CommandHandled (latchedClass s) ∧ condAdmitted (latchedClass s) f.cond := by
  cases h with
  | invalid h =>
    rw [hv] at h
    cases h
  | data h hclass elements hevs =>
    rcases hclass with hclass | hclass <;> (rw [hclass]; simp [condAdmitted, CommandHandled])
  | request h kind hclass cond hcond evs hkinds hstatus hsets =>
    rcases hclass with ⟨rfl, hclass⟩ | ⟨rfl, hclass⟩
    · rw [hclass]
      simpa [condAdmitted, CommandHandled] using hcond
    · rw [hclass]
      simpa [condAdmitted, CommandHandled] using hcond
  | unhandled h hclass =>
    refine ⟨rfl, hclass.symm, ?_⟩
    have hnot : ∀ c, CommandHandled c = true → latchedClass s ≠ c := fun c hc he => by
      rw [he, hc] at hclass
      cases hclass
    exact ⟨fun hdata => hdata.elim (fun he => absurd he (hnot _ rfl)) (fun he => absurd he (hnot _ rfl)),
      fun he => absurd he (hnot _ rfl), fun he => absurd he (hnot _ rfl), fun _ => rfl⟩

/-- The flags of an invalid frame: over-length before checksum (60 R229). -/
theorem Completion.flags_of_invalid {s : State} {b : Byte} {evs : List Event} {f : FlagRegs} (h : Completion s b evs f)
    (hv : verdict b s = false) :
    f.valid = false ∧ f.handled = false ∧ f.cond = if s.rx.overLen then .overlength else .checksum := by
  cases h with
  | invalid h => exact ⟨rfl, rfl, cond_invalidCondition b s⟩
  | data h hclass elements hevs => rw [hv] at h; cases h
  | request h kind hclass cond hcond evs hkinds hstatus hsets => rw [hv] at h; cases h
  | unhandled h hclass => rw [hv] at h; cases h

/-- Settles O21, by the verdict. -/
theorem flagsOfCompletedFrame : Obligations.FlagsOfCompletedFrame := by
  unfold Obligations.FlagsOfCompletedFrame
  intro s t b hstep hc
  obtain ⟨evs, hbody, _⟩ := completed_of_step hstep hc
  rw [completingValid_of_completing hc]
  cases hv : verdict b s with
  | false =>
    obtain ⟨hvalid, hhandled, hcond⟩ := hbody.flags_of_invalid hv
    exact ⟨hvalid, by simp [hhandled], fun ho => by rw [hcond, if_pos ho], fun ho _ => by rw [hcond, ho]; rfl,
      fun c hclass => by cases hclass⟩
  | true =>
    obtain ⟨hvalid, hhandled, hcond⟩ := hbody.flags_of_valid hv
    obtain ⟨hover, hsum⟩ := of_verdict_true hv
    refine ⟨hvalid, by simp [hhandled], fun ho => ?_, fun _ hne => absurd hsum hne, fun c hclass => ?_⟩
    · rw [hover] at ho
      cases ho
    · cases hclass
      exact hcond

/-- Settles O22: the start-up asks for nothing, and a completion for what its class needs. -/
theorem expiredIsAskedOncePerRequestFrame : Obligations.ExpiredIsAskedOncePerRequestFrame := by
  unfold Obligations.ExpiredIsAskedOncePerRequestFrame
  intro s t hstep
  cases hc : completing s with
  | none =>
    obtain ⟨entries, htrace⟩ := silent_of_step hstep hc
    rw [completingValid_of_none hc]
    exact ⟨_, htrace, (registrations_uncounted entries).2.1⟩
  | some b =>
    obtain ⟨evs, hdone⟩ := completed_of_step hstep hc
    refine ⟨_, hdone.trace, ?_⟩
    rw [List.filterMap_append, hdone.body.kinds, completingValid_of_completing hc]
    cases verdict b s with
    | false => rfl
    | true => cases latchedClass s <;> rfl

/-- Settles O23: an event that writes the store comes from the decoder alone. -/
theorem onlyDataFramesWriteTheStore : Obligations.OnlyDataFramesWriteTheStore := by
  unfold Obligations.OnlyDataFramesWriteTheStore
  intro s t hstep
  cases hc : completing s with
  | none =>
    obtain ⟨entries, htrace⟩ := silent_of_step hstep hc
    exact ⟨_, htrace, fun _ _ => (registrations_uncounted entries).2.2⟩
  | some b =>
    obtain ⟨evs, hdone⟩ := completed_of_step hstep hc
    refine ⟨_, hdone.trace, fun hdatablock hreaddata => ?_⟩
    rw [completingValid_of_completing hc] at hdatablock hreaddata
    have hsets : evs.filter isSet = [] := hdone.body.sets fun ⟨hv, hclass⟩ => by
      rw [if_pos hv] at hdatablock hreaddata
      exact hclass.elim (fun h => hdatablock (congrArg some h)) (fun h => hreaddata (congrArg some h))
    rw [List.filter_append, hsets]
    rfl

/-- Settles O24: each kind of step keeps the parameters and appends. -/
theorem parametersAreFixedAndTraceGrows : Obligations.ParametersAreFixedAndTraceGrows := by
  unfold Obligations.ParametersAreFixedAndTraceGrows
  intro s t hstep
  rcases step_cases hstep with ⟨_, rfl⟩ | ⟨_, _, rfl⟩ | ⟨_, rest, _, rfl⟩ | ⟨b, rest, _, _, r, rfl, _⟩ |
    ⟨b, rest, hreads, hphase, _⟩
  · rw [startUp_eq]
    exact ⟨debugTexts_params s, _, rfl⟩
  · exact ⟨rfl, [], (List.append_nil _).symm⟩
  · exact ⟨by simp, [], by simp⟩
  · exact ⟨by simp, [], by simp⟩
  · obtain ⟨evs, hdone⟩ := completed_of_step hstep (completing_reads hreads hphase)
    exact ⟨hdone.params, _, hdone.trace⟩

/-- The step of a valid data frame is its decode (44 R202, R203). -/
theorem step_data {s : State} {b : Byte} {rest : List Input} (hinv : Inv s) (hreads : Reads s b rest)
    (hvalid : completingValid s = some .datablock ∨ completingValid s = some .readdata) :
    step s = .next (reportStatus (handleData (rxPayload s) { s.taking rest with
        rx := { s.rx with phase := .hunt }, flags := { valid := true, handled := false, cond := .none } })) := by
  obtain ⟨b', hc⟩ : ∃ b', completing s = some b' := by
    cases hc : completing s with
    | none =>
      rw [completingValid_of_none hc] at hvalid
      rcases hvalid with h | h <;> cases h
    | some b' => exact ⟨b', rfl⟩
  obtain ⟨hphase, _⟩ := reads_of_completing hc
  rw [completingValid_reads hreads hphase] at hvalid
  have hv : verdict b s = true := by
    cases hv : verdict b s with
    | true => rfl
    | false =>
      rw [hv] at hvalid
      rcases hvalid with h | h <;> cases h
  rw [if_pos hv] at hvalid
  rw [step_valid hinv hreads hphase hv, inboundInstr]
  rcases hvalid with hclass | hclass <;> (rw [Option.some.inj hclass]; rfl)

/-- The decoder's events are no replies. -/
theorem repliesOf_decodeEvents (p : Params) (payload : List Byte) : repliesOf (decodeEvents p payload) = [] :=
  repliesOf_eq_nil fun ev hev => by
    obtain ⟨e, _, rfl | rfl⟩ := mem_decodeEvents hev
    · rfl
    · rfl

/-- Settles O26: the step is ACK, the decoder's events, then the report. -/
theorem dataFramesAreAcknowledgedFirst : Obligations.DataFramesAreAcknowledgedFirst := by
  unfold Obligations.DataFramesAreAcknowledgedFirst
  intro s b rest hinv hreads hvalid
  obtain ⟨_, _, _, hmax⟩ := hinv.paramsOk
  have hval : s.dec.val.wf := hinv.curVal.canonical
  refine ⟨_, decodeEvents s.params (rxPayload s) ++ [.status true true .none], step_data hinv hreads hvalid, ?_, ?_, ?_⟩
  · rw [handleData_eq (by simpa using hmax) (by simpa using hval), reportStatus_eq]
    simp
  · rw [repliesOf_append, repliesOf_decodeEvents]
    rfl
  · rw [decodeElements_trace hmax hval, List.append_assoc]

end Sys2Proof
end

