-- ==== Sys2Proof/Proofs/Invariant.lean ====
section
/-! PROOFS. The invariant of the machine between steps: it holds after reset, every step keeps it, and it leaves only a broken
store contract to stop a step; O43 to O45. -/

namespace Sys2Proof

open Sys2Proof.Machine Sys2Proof.Safety Sys2Proof.Laws

/-! ### The parts of the invariant -/

theorem bufferOk_nil (size : Nat) : BufferOk size [] := ⟨Memory.wf_nil, fun c hc => by cases hc⟩

theorem bufferOk_write {size a : Nat} {m : Memory} (h : BufferOk size m) (ha : a < size) (v : Byte) :
    BufferOk size (m.write a v) :=
  ⟨Memory.wf_write a v h.canonical, Memory.bounded_write v h.bounded ha⟩

theorem bufferOk_writeN {size : Nat} {m : Memory} (h : BufferOk size m) {data : List Byte} (hfit : data.length ≤ size) :
    BufferOk size (m.writeN 0 data) :=
  ⟨Memory.wf_writeN 0 data h.canonical, Memory.bounded_writeN data h.bounded (by omega)⟩

theorem assemblerOk_of_hunt {s : State} (h : s.rx.phase = .hunt) : AssemblerOk s := by
  rw [AssemblerOk, h]
  trivial

/-- The assembler's part speaks of frame registers and parameters only. -/
theorem assemblerOk_congr {s v : State} (h : AssemblerOk s) (hrx : v.rx = s.rx) (hparams : v.params = s.params) :
    AssemblerOk v := by
  have hlatch : LatchOk s → LatchOk v := fun hl => ⟨by rw [hrx, hparams]; exact hl.overLen, by rw [hrx]; exact hl.xor⟩
  unfold AssemblerOk at *
  rw [hrx, hparams]
  cases hphase : s.rx.phase with
  | data =>
    simp only [hphase] at h
    exact ⟨h.1, h.2.1, hlatch h.2.2⟩
  | csum =>
    simp only [hphase] at h
    exact ⟨h.1, h.2.1, hlatch h.2.2⟩
  | hunt => trivial
  | pfx1 => simpa only [hphase] using h
  | pfx2 => simpa only [hphase] using h
  | cmd => simpa only [hphase] using h
  | len => simpa only [hphase] using h

/-- What the invariant says of the decoder's registers. -/
structure DecoderOk (p : Params) (d : DecRegs) : Prop where
  curVal : BufferOk p.maxValueSize d.val
  idle   : d.size = 0 ∧ d.pos % 4 = 0 ∧ d.pos ≤ 252

theorem decoderOk_of_inv {s : State} (h : Inv s) : DecoderOk s.params s.dec := ⟨h.curVal, h.idle⟩

/-- A state in HUNT with the parameters and the `rxbuf` of one that meets the invariant, by its other parts. -/
theorem inv_in_hunt {s v : State} (h : Inv s) (hparams : v.params = s.params) (hphase : v.rx.phase = .hunt)
    (hrx : v.rx.buf = s.rx.buf) (htx : BufferOk s.params.maxData v.tx.buf) (hdec : DecoderOk s.params v.dec)
    (hevents : ∀ e ∈ v.trace, EventOk s.params e) : Inv v where
  paramsOk := by rw [hparams]; exact h.paramsOk
  rxBuf := by rw [hparams, hrx]; exact h.rxBuf
  txBuf := by rw [hparams]; exact htx
  curVal := by rw [hparams]; exact hdec.curVal
  idle := hdec.idle
  assembler := assemblerOk_of_hunt hphase
  events := by rw [hparams]; exact hevents

theorem inv_taking {s : State} (h : Inv s) (rest : List Input) : Inv (s.taking rest) := by
  rw [taking_eq]
  exact ⟨h.paramsOk, h.rxBuf, h.txBuf, h.curVal, h.idle, assemblerOk_congr h.assembler rfl rfl, h.events⟩

/-- Settles O43: the buffers are empty, the trace too, and the reference parameters are in range. -/
theorem resetKeepsInvariant : Obligations.ResetKeepsInvariant := by
  unfold Obligations.ResetKeepsInvariant
  exact ⟨by decide, bufferOk_nil _, bufferOk_nil _, bufferOk_nil _, ⟨rfl, rfl, Nat.zero_le _⟩, assemblerOk_of_hunt rfl,
    fun e he => by cases he⟩

/-! ### A byte that completes no frame -/

theorem assemblerOk_huntRegs (b : Byte) (r : RxRegs) (s : State) :
    AssemblerOk { s with rx := huntRegs s.params b r } := by
  unfold huntRegs
  split
  · rename_i hb
    exact hb
  · exact assemblerOk_of_hunt rfl

theorem assemblerOk_lenRegs {s : State} (hnode : s.rx.node = s.params.nodeIdRx) (hxor : s.rx.xor = s.rx.cmd) (b : Byte) :
    AssemblerOk { s with rx := lenRegs s.params b s.rx } := by
  have hlatch : LatchOk { s with rx := lenRegs s.params b s.rx } :=
    ⟨rfl, fun _ => by
      show s.rx.xor ^^^ b = checksum s.rx.cmd b []
      rw [hxor, checksum_nil]⟩
  by_cases hb : b = 0
  · have hphase : (lenRegs s.params b s.rx).phase = .csum := if_pos hb
    unfold AssemblerOk
    simp only [hphase]
    exact ⟨hnode, hb.symm, hlatch⟩
  · have hphase : (lenRegs s.params b s.rx).phase = .data := if_neg hb
    have hpos : 0 < b.toNat := Nat.pos_of_ne_zero fun h0 => hb (BitVec.eq_of_toNat_eq h0)
    unfold AssemblerOk
    simp only [hphase]
    exact ⟨hnode, hpos, hlatch⟩

theorem latchOk_dataRegs {s : State} (hbuf : s.rx.buf.wf) (hcnt : s.rx.cnt.toNat < s.rx.len.toNat) (hlatch : LatchOk s)
    (b : Byte) : LatchOk { s with rx := dataRegs s.params b s.rx } where
  overLen := hlatch.overLen
  xor := fun hover => by
    have hover : s.rx.overLen = false := hover
    have hfit : s.rx.len.toNat ≤ s.params.maxData := by
      have := hlatch.overLen.symm.trans hover
      simpa using this
    have hread := readN_dataRegs hbuf (hcnt.trans_le hfit) b
    show s.rx.xor ^^^ b = checksum s.rx.cmd s.rx.len ((dataRegs s.params b s.rx).buf.readN 0 (s.rx.cnt + 1).toNat)
    rw [toNat_succ_of_lt hcnt, hread, checksum_append, hlatch.xor hover]

theorem assemblerOk_dataRegs {s : State} (hbuf : s.rx.buf.wf) (hnode : s.rx.node = s.params.nodeIdRx)
    (hcnt : s.rx.cnt.toNat < s.rx.len.toNat) (hlatch : LatchOk s) (b : Byte) :
    AssemblerOk { s with rx := dataRegs s.params b s.rx } := by
  have hnext := latchOk_dataRegs hbuf hcnt hlatch b
  by_cases hlast : s.rx.cnt + 1 = s.rx.len
  · have hphase : (dataRegs s.params b s.rx).phase = .csum := if_pos hlast
    unfold AssemblerOk
    simp only [hphase]
    exact ⟨hnode, hlast, hnext⟩
  · have hphase : (dataRegs s.params b s.rx).phase = .data := if_neg hlast
    have hmore : (s.rx.cnt + 1).toNat < s.rx.len.toNat := by
      have hne : (s.rx.cnt + 1).toNat ≠ s.rx.len.toNat := fun h => hlast (BitVec.eq_of_toNat_eq h)
      rw [toNat_succ_of_lt hcnt] at hne ⊢
      omega
    unfold AssemblerOk
    simp only [hphase]
    exact ⟨hnode, hmore, hnext⟩

theorem assemblerOk_prefixRegs {s : State} (hnode : s.rx.node = s.params.nodeIdRx) (expected b : Byte) {next : Phase}
    (hnext : next = .pfx2 ∨ next = .cmd) : AssemblerOk { s with rx := prefixRegs s.params expected next b s.rx } := by
  unfold prefixRegs
  split
  · exact assemblerOk_huntRegs b s.rx s
  · rcases hnext with rfl | rfl <;> exact hnode

/-- One transition of the frame registers keeps the assembler's part (40 R125 to R130). -/
theorem assemblerOk_assemble {s : State} (h : AssemblerOk s) (hbuf : s.rx.buf.wf) (hcsum : s.rx.phase ≠ .csum) (b : Byte) :
    AssemblerOk { s with rx := assemble s.params b s.rx } := by
  unfold AssemblerOk at h
  cases hphase : s.rx.phase with
  | hunt =>
    rw [assemble_hunt hphase]
    exact assemblerOk_huntRegs b s.rx s
  | pfx1 =>
    simp only [hphase] at h
    rw [assemble_pfx1 hphase]
    exact assemblerOk_prefixRegs h _ b (.inl rfl)
  | pfx2 =>
    simp only [hphase] at h
    rw [assemble_pfx2 hphase]
    exact assemblerOk_prefixRegs h _ b (.inr rfl)
  | cmd =>
    simp only [hphase] at h
    rw [assemble_cmd hphase]
    exact ⟨h, rfl⟩
  | len =>
    simp only [hphase] at h
    rw [assemble_len hphase]
    exact assemblerOk_lenRegs h.1 h.2 b
  | data =>
    simp only [hphase] at h
    obtain ⟨hnode, hcnt, hlatch⟩ := h
    rw [assemble_data hphase]
    exact assemblerOk_dataRegs hbuf hnode hcnt hlatch b
  | csum => exact absurd hphase hcsum

theorem buf_huntRegs (p : Params) (b : Byte) (r : RxRegs) : (huntRegs p b r).buf = r.buf := by
  unfold huntRegs
  split <;> rfl

theorem buf_prefixRegs (p : Params) (expected : Byte) (next : Phase) (b : Byte) (r : RxRegs) :
    (prefixRegs p expected next b r).buf = r.buf := by
  unfold prefixRegs
  split
  · exact buf_huntRegs p b r
  · rfl

/-- `rxbuf` is written in phase DATA only (40 R125 to R130). -/
theorem buf_assemble_of_not_data {r : RxRegs} (h : r.phase ≠ .data) (p : Params) (b : Byte) :
    (assemble p b r).buf = r.buf := by
  cases hphase : r.phase with
  | hunt => rw [assemble_hunt hphase, buf_huntRegs]
  | pfx1 => rw [assemble_pfx1 hphase, buf_prefixRegs]
  | pfx2 => rw [assemble_pfx2 hphase, buf_prefixRegs]
  | cmd => rw [assemble_cmd hphase]
  | len => rw [assemble_len hphase]; rfl
  | data => exact absurd hphase h
  | csum => rw [assemble, hphase]

theorem bufferOk_assemble {p : Params} {r : RxRegs} (h : BufferOk p.maxData r.buf) (b : Byte) :
    BufferOk p.maxData (assemble p b r).buf := by
  by_cases hphase : r.phase = .data
  · rw [assemble_data hphase]
    unfold dataRegs
    dsimp only
    split
    · rename_i hroom
      exact bufferOk_write h hroom b
    · exact h
  · rwa [buf_assemble_of_not_data hphase]

theorem inv_assemble {s : State} (h : Inv s) (hcsum : s.rx.phase ≠ .csum) (b : Byte) :
    Inv { s with rx := assemble s.params b s.rx } :=
  ⟨h.paramsOk, bufferOk_assemble h.rxBuf b, h.txBuf, h.curVal, h.idle,
    assemblerOk_assemble h.assembler h.rxBuf.canonical hcsum b, h.events⟩

/-! ### Frame completion -/

/-- The decoder's value buffer stays within its bound. -/
theorem bounded_appendValue {s : State} (h : BufferOk s.params.maxValueSize s.dec.val) (v0 v1 : Byte) :
    BufferOk s.params.maxValueSize (appendValue v0 v1 s).dec.val := by
  by_cases hroom : s.dec.size < s.params.maxValueSize - 1
  · rw [appendValue_of_room hroom]
    exact bufferOk_write (bufferOk_write h (by omega) v0) (by omega) v1
  · rwa [appendValue_of_full hroom]

theorem bounded_stepGroup {s : State} (h : BufferOk s.params.maxValueSize s.dec.val) (g : Group) :
    BufferOk s.params.maxValueSize (stepGroup s g).dec.val := by
  cases hg : g.isContinuation with
  | true =>
    rw [stepGroup_continuation hg]
    exact bounded_appendValue h _ _
  | false =>
    rw [stepGroup_real hg]
    have hopen := openElement_params g.addr s
    have hval : (openElement g.addr s).dec.val = s.dec.val := by rw [openElement_dec]
    have happend := bounded_appendValue (s := openElement g.addr s) (by rw [hopen, hval]; exact h) g.v0 g.v1
    rw [hopen] at happend
    exact happend

theorem bounded_foldl {s : State} (h : BufferOk s.params.maxValueSize s.dec.val) (gs : List Group) :
    BufferOk s.params.maxValueSize (gs.foldl stepGroup s).dec.val := by
  induction gs generalizing s with
  | nil => exact h
  | cons g gs ih =>
    have hparams := stepGroup_params s g
    have hrest := ih (s := stepGroup s g) (by rw [hparams]; exact bounded_stepGroup h g)
    rwa [hparams] at hrest

/-- A decode of a payload that a length byte counts leaves the decoder idle (42 R166 to R173). -/
theorem decoderOk_decodeElements {s : State} (h : BufferOk s.params.maxValueSize s.dec.val) {payload : List Byte}
    (hlen : payload.length ≤ 255) : DecoderOk s.params (decodeElements payload s).dec where
  curVal := by
    rw [decodeElements_eq, flushNonempty_dec]
    exact bounded_foldl (s := decodeStart s) h _
  idle := by
    rw [decodeElements_pos]
    exact ⟨decodeElements_size payload s, by omega, by omega⟩

theorem eventOk_decodeEvents {p : Params} (hp : p.Ok) (payload : List Byte) : ∀ ev ∈ decodeEvents p payload, EventOk p ev := by
  intro ev hev
  obtain ⟨_, _, _, hmax⟩ := hp
  obtain ⟨e, he, rfl | rfl⟩ := mem_decodeEvents hev
  · obtain ⟨haddr, heven, hmin, hfits⟩ := elementsOf_ok hmax he
    exact ⟨haddr, rfl, heven, hmin, hfits⟩
  · obtain ⟨haddr, heven, hmin, hfits⟩ := elementsOf_ok hmax he
    exact ⟨haddr, rfl, heven, hmin, hfits⟩

theorem eventOk_of_isAsk {p : Params} {e : Event} (h : isAsk e = true) : EventOk p e := by
  cases e with
  | getExp kind answer => trivial
  | getElem index answer => trivial
  | getSize index size => trivial
  | _ => cases h

/-- The events of a request frame that decodes are in order (43 R191). -/
theorem eventOk_requestEvents {p : Params} {bytes : List Byte} {i : Instr} (h : decodeOutbound p bytes = .ok i) :
    ∀ e ∈ requestEvents p bytes, EventOk p e := by
  intro e he
  unfold requestEvents at he
  have hcases : e = .fwdF bytes ∨ e = .tx bytes := by
    split at he
    · simpa using he
    · exact .inr (List.mem_singleton.mp he)
  rcases hcases with rfl | rfl
  · exact ⟨i, h⟩
  · exact .inr (.inr ⟨i, h⟩)

/-! ### The instructions keep the invariant -/

/-- More events in order, at the same registers but for the flags. -/
theorem inv_of_events {s v : State} (h : Inv s) (hphase : s.rx.phase = .hunt) {evs : List Event}
    (hevs : ∀ e ∈ evs, EventOk s.params e)
    (hv : v = { s with flags := v.flags, store := v.store, trace := s.trace ++ evs }) : Inv v := by
  rw [hv]
  exact inv_in_hunt h rfl hphase rfl h.txBuf (decoderOk_of_inv h) (List.forall_mem_append.mpr ⟨h.events, hevs⟩)

theorem inv_latchVerdict {s : State} (h : Inv s) (b : Byte) : Inv (latchVerdict b s) :=
  inv_in_hunt h rfl rfl rfl h.txBuf (decoderOk_of_inv h) h.events

theorem eventOk_ack (p : Params) : EventOk p (.tx [Config.ackByte]) := .inl rfl

theorem eventOk_nak (p : Params) : EventOk p (.tx [Config.nakByte]) := .inr (.inl rfl)

/-- DATABLOCK and READDATA keep the invariant (42 R166 to R175). -/
theorem inv_handleData {s : State} (h : Inv s) (hphase : s.rx.phase = .hunt) {payload : List Byte}
    (hlen : payload.length ≤ 255) : Inv (handleData payload s) := by
  obtain ⟨_, _, _, hmax⟩ := id h.paramsOk
  rw [handleData_eq hmax h.curVal.canonical]
  refine inv_in_hunt h rfl hphase rfl h.txBuf (decoderOk_decodeElements (s := sendAck s) h.curVal hlen) ?_
  exact List.forall_mem_append.mpr
    ⟨h.events, List.forall_mem_cons.mpr ⟨eventOk_ack _, eventOk_decodeEvents h.paramsOk payload⟩⟩

theorem inv_handleUnhandled {s : State} (h : Inv s) (hphase : s.rx.phase = .hunt) (cmd : Byte) :
    Inv (handleUnhandled cmd s) :=
  inv_of_events h hphase (List.forall_mem_singleton.mpr (eventOk_ack _)) (handleUnhandled_eq cmd s)

/-- A request that fits and decodes keeps the invariant once it is staged and sent (43 R191, R194). -/
theorem inv_sendStaged {s : State} (h : Inv s) (hphase : s.rx.phase = .hunt) {cmd : Byte} {data : List Byte} {i : Instr}
    (hfit : data.length ≤ s.params.maxData) (hi : decodeOutbound s.params (requestFrame s.params cmd data) = .ok i) :
    Inv (sendStaged (stageRequest cmd data s)) := by
  obtain ⟨_, _, hmax, _⟩ := id h.paramsOk
  rw [sendStaged_stageRequest h.txBuf.canonical cmd (hfit.trans hmax)]
  exact inv_in_hunt h rfl hphase rfl (bufferOk_writeN h.txBuf hfit) (decoderOk_of_inv h)
    (List.forall_mem_append.mpr ⟨h.events, eventOk_requestEvents hi⟩)

/-- READREQ and WRITEREQ keep the invariant (43 R186 to R195). -/
theorem inv_of_answered {kind : StoreKind} {cmd : Byte} {s v : State} (ha : Answered kind cmd s v) (h : Inv s)
    (hphase : s.rx.phase = .hunt)
    (hcmd : kind = .read ∧ cmd = s.params.cmdReadreq ∨ kind = .readWrite ∧ cmd = s.params.cmdWritereq) : Inv v := by
  obtain ⟨_, hmin, hmax, _⟩ := id h.paramsOk
  obtain ⟨st, asks, hasks, _, hend⟩ := ha
  have hasks : ∀ e ∈ asks, EventOk s.params e := fun e he => eventOk_of_isAsk (hasks e he)
  have hasked : Inv { s with store := st, trace := s.trace ++ asks } := inv_of_events h hphase hasks rfl
  rcases hend with ⟨c, _, rfl⟩ | ⟨ident, value, hread, hwrite, rfl⟩
  · exact inv_of_events hasked hphase (List.forall_mem_singleton.mpr (eventOk_ack _)) rfl
  · rcases hcmd with ⟨rfl, rfl⟩ | ⟨rfl, rfl⟩
    · obtain rfl := hread rfl
      exact inv_sendStaged hasked hphase (by rw [length_requestData]; exact Nat.le_trans (by decide) hmin)
        (decodeOutbound_readRequest h.paramsOk ident)
    · exact inv_sendStaged hasked hphase (by rw [length_requestData]; exact hwrite rfl)
        (decodeOutbound_writeRequest h.paramsOk ident ((hwrite rfl).trans hmax))

/-- The report of a completion is one of 60 R220's rows. -/
theorem Completion.eventOk_status {s : State} {b : Byte} {evs : List Event} {f : FlagRegs} (h : Completion s b evs f)
    (p : Params) : EventOk p (.status f.valid f.handled f.cond) := by
  cases h with
  | invalid h =>
    show (invalidCondition b s).cond = .checksum ∨ (invalidCondition b s).cond = .overlength
    rw [cond_invalidCondition]
    split
    · exact .inr rfl
    · exact .inl rfl
  | data h hclass elements hevs => exact .inl rfl
  | request h kind hclass cond hcond evs hkinds hstatus hsets =>
    exact hcond.imp_right fun h => h.imp_right fun h => h.imp_right And.right
  | unhandled h hclass => rfl

/-- Completing a frame keeps the invariant: its instruction or NAK does, and the report is in order. -/
theorem inv_csumByte {s t : State} {b : Byte} (h : Inv s) (hstep : csumByte b s = .next t) : Inv t := by
  obtain ⟨_, _, hmax, _⟩ := id h.paramsOk
  have hlatch := inv_latchVerdict h b
  have hreport : ∀ v, t = reportStatus v → Inv v → v.rx.phase = .hunt → Inv t := fun v ht hv hphase => by
    obtain ⟨evs, hbody, _⟩ := completed_of_csumByte hstep
    have hstatus := hbody.eventOk_status v.params
    rw [ht] at hstatus ⊢
    exact inv_of_events hv hphase (List.forall_mem_singleton.mpr hstatus) (reportStatus_eq v)
  rcases csumByte_next hstep with ⟨hv, hfit, v, hexec, ht⟩ | ⟨hv, ht⟩
  · have hphase : v.rx.phase = .hunt := by
      obtain ⟨evs, hdone⟩ := completed_of_csumByte hstep
      have := hdone.phase
      rwa [ht] at this
    refine hreport v ht ?_ hphase
    rcases exec_fetchInstr hexec with ⟨_, rfl⟩ | ⟨_, rfl⟩ | ⟨_, hwrite⟩ | ⟨_, c, rfl⟩
    · exact inv_handleData hlatch rfl (by rw [rxPayload, Memory.length_readN]; exact hfit.trans hmax)
    · exact inv_of_answered (answered_read _) (inv_of_events hlatch rfl (evs := []) (by simp) (by simp [setHandled])) rfl
        (.inl ⟨rfl, rfl⟩)
    · exact inv_of_answered (answered_write hwrite) (inv_of_events hlatch rfl (evs := []) (by simp) (by simp [setHandled])) rfl
        (.inr ⟨rfl, rfl⟩)
    · exact inv_handleUnhandled hlatch rfl c
  · exact hreport _ ht (inv_of_events hlatch rfl (List.forall_mem_singleton.mpr (eventOk_nak _)) rfl) rfl

/-- Settles O44, by the kinds of step. -/
theorem everyStepKeepsInvariant : Obligations.EveryStepKeepsInvariant := by
  unfold Obligations.EveryStepKeepsInvariant
  intro s t h hstep
  rcases step_cases hstep with ⟨_, rfl⟩ | ⟨_, _, rfl⟩ | ⟨_, rest, _, rfl⟩ | ⟨b, rest, _, hphase, r, _, hbyte⟩ |
    ⟨b, rest, _, _, hcsum⟩
  · have hregistered : ∀ e ∈ s.params.errorSentinels.map (fun entry => Event.setErr entry.1 entry.2), EventOk s.params e :=
      fun e he => by
        obtain ⟨entry, hentry, rfl⟩ := List.mem_map.mp he
        exact hentry
    rw [startUp_eq, debugTexts_eq]
    exact ⟨h.paramsOk, h.rxBuf, h.txBuf, h.curVal, h.idle, assemblerOk_congr h.assembler rfl rfl,
      List.forall_mem_append.mpr ⟨h.events, hregistered⟩⟩
  · exact h
  · have htaken := inv_taking h rest
    exact ⟨htaken.paramsOk, bufferOk_nil _, bufferOk_nil _, bufferOk_nil _, ⟨rfl, rfl, Nat.zero_le _⟩,
      assemblerOk_of_hunt rfl, htaken.events⟩
  · have hcsum : (s.taking rest).rx.phase ≠ .csum := by rwa [taking_rx]
    rw [receiveByte_assembles hcsum] at hbyte
    cases hbyte
    exact inv_assemble (inv_taking h rest) hcsum b
  · exact inv_csumByte (inv_taking h rest) hcsum

/-! ### What can stop a step -/

/-- The store's answers depend on the store port alone. -/
theorem acquired_congr {s v : State} (h : v.store = s.store) (kind : StoreKind) : acquired kind v = acquired kind s := by
  simp only [acquired, expiredAnswer, elementAnswer, callExpired, emit, h]

theorem acquire_store_congr {s v : State} (h : v.store = s.store) (kind : StoreKind) :
    (acquire kind v).store = (acquire kind s).store := by
  have hgot : expiredAnswer kind v = expiredAnswer kind s := by rw [expiredAnswer, expiredAnswer, h]
  unfold acquire
  rw [hgot]
  cases expiredAnswer kind s <;> simp [h]

theorem sizeAnswer_congr {s v : State} (h : v.store = s.store) (index : Nat) : sizeAnswer index v = sizeAnswer index s := by
  rw [sizeAnswer, sizeAnswer, h]

/-- WRITEREQ completes or is refused because the element holds too few bytes (93 U12). -/
theorem exec_writereq_outcome (payload : List Byte) (s : State) :
    (∃ v, exec (.writereq payload) s = .next v) ∨
    ∃ index e, acquired .readWrite s = .entry index e ∧ e.value.length < sizeAnswer index (acquire .readWrite s) ∧
      exec (.writereq payload) s =
        .refused (.storeContract index (sizeAnswer index (acquire .readWrite s)) e.value.length) := by
  cases ha : acquired .readWrite s with
  | failed c => exact .inl ⟨_, exec_writereq_of_failed ha payload⟩
  | entry index e =>
    rw [exec_writereq_of_entry ha, writeEntry]
    split
    · exact .inl ⟨_, rfl⟩
    · split
      · rename_i hbroken
        exact .inr ⟨index, e, rfl, hbroken, rfl⟩
      · exact .inl ⟨_, rfl⟩

/-- The same of every received instruction. -/
theorem exec_inbound_outcome (p : Params) (cmd : Byte) (payload : List Byte) (s : State) :
    (∃ v, exec (inboundInstr p cmd payload) s = .next v) ∨
    ∃ index e, acquired .readWrite s = .entry index e ∧ e.value.length < sizeAnswer index (acquire .readWrite s) ∧
      exec (inboundInstr p cmd payload) s =
        .refused (.storeContract index (sizeAnswer index (acquire .readWrite s)) e.value.length) := by
  rw [inboundInstr]
  cases classify p cmd with
  | writereq => exact exec_writereq_outcome payload s
  | datablock => exact .inl ⟨_, rfl⟩
  | readdata => exact .inl ⟨_, rfl⟩
  | readreq => exact .inl ⟨_, rfl⟩
  | ack => exact .inl ⟨_, rfl⟩
  | nak => exact .inl ⟨_, rfl⟩
  | unknown => exact .inl ⟨_, rfl⟩

/-- Under the invariant a step goes on, or is refused because the store breaks its contract. -/
theorem step_outcome {s : State} (h : Inv s) :
    (∃ t, step s = .next t) ∨
    ∃ index e, acquired .readWrite s = .entry index e ∧ e.value.length < sizeAnswer index (acquire .readWrite s) ∧
      step s = .refused (.storeContract index (sizeAnswer index (acquire .readWrite s)) e.value.length) := by
  cases hpending : s.startPending with
  | true => exact .inl ⟨_, step_startPending hpending⟩
  | false =>
    match hinput : s.input with
    | [] => exact .inl ⟨_, step_idle hpending hinput⟩
    | .reset :: rest => exact .inl ⟨_, step_input hpending hinput⟩
    | .byte b :: rest =>
      by_cases hphase : s.rx.phase = .csum
      · cases hv : verdict b s with
        | false =>
          have hinvalid := csumByte_of_invalid (s := s.taking rest) (by rwa [verdict_taking])
          exact .inl ⟨_, (step_completes ⟨hpending, hinput⟩ hphase).trans hinvalid⟩
        | true =>
          have hrun := step_valid h ⟨hpending, hinput⟩ hphase hv
          generalize hu : ({ s.taking rest with
            rx := { s.rx with phase := .hunt }, flags := { valid := true, handled := false, cond := .none } } : State) = u at hrun
          have hstore : u.store = s.store := by rw [← hu]; exact taking_store s rest
          rcases exec_inbound_outcome s.params s.rx.cmd (rxPayload s) u with ⟨v, hexec⟩ | ⟨index, e, hentry, hheld, hexec⟩
          · rw [hexec] at hrun
            exact .inl ⟨_, hrun⟩
          · rw [sizeAnswer_congr (acquire_store_congr hstore _)] at hheld hexec
            rw [acquired_congr hstore] at hentry
            rw [hexec] at hrun
            exact .inr ⟨index, e, hentry, hheld, hrun⟩
      · exact .inl ⟨_, step_assembles ⟨hpending, hinput⟩ hphase⟩

/-- Settles O45: of the two outcomes of a step the refusal contradicts the store's contract. -/
theorem nothingStopsTheBlock : Obligations.NothingStopsTheBlock := by
  unfold Obligations.NothingStopsTheBlock
  intro s h
  rcases step_outcome h with ⟨t, hstep⟩ | ⟨index, e, hentry, hheld, hstep⟩
  · rw [hstep]
    exact ⟨fun r hr => (by cases hr), fun r hr => (by cases hr), fun _ => ⟨t, rfl⟩⟩
  · rw [hstep]
    refine ⟨fun r hr => (by cases hr), fun r hr => ?_, fun hcontract => ?_⟩
    · cases hr
      exact ⟨index, _, _, rfl, hheld⟩
    · exact absurd (hcontract index e hentry) (Nat.not_le.mpr hheld)

end Sys2Proof
end

