-- ==== Sys2Proof/Proofs/Hooks.lean ====
section
/-! PROOFS. The hooks have no effect but their own events (10 R37, 44 R211, 93 U15): every operation, run without hooks, leaves
the same state less the forward events and the debug texts; O47. -/

namespace Sys2Proof

open Sys2Proof.Machine Sys2Proof.Safety Sys2Proof.Laws

/-! ### A state and its double without hooks -/

/-- The events that are not the forward hook's. -/
abbrev unforwarded (evs : List Event) : List Event := evs.filter fun e => !isForward e

/-- `s` with both hooks taken off, and with trace and debug port given. -/
def muted (trace : List Event) (d : DebugPort) (s : State) : State :=
  { withoutHooks s with trace := trace, dbg := d }

/-- `u` is the double of `s` without hooks: since the trace `base` it has put out what `s` has, less the forward events, and
its debug port is still `d`. -/
def Mutes (base : List Event) (d : DebugPort) (s u : State) : Prop :=
  ∃ evs, s.trace = base ++ evs ∧ u = muted (base ++ unforwarded evs) d s

theorem mutes_withoutHooks (s : State) : Mutes s.trace s.dbg s (withoutHooks s) :=
  ⟨[], (List.append_nil _).symm, by simp [muted, withoutHooks]⟩

section Doubles

variable {base : List Event} {d : DebugPort} {s u : State}

/-- Both states put out events, the double the unforwarded ones, and are otherwise updated alike. -/
theorem Mutes.emits {s' u' : State} (h : Mutes base d s u) (evs : List Event) (hs : s'.trace = s.trace ++ evs)
    (hu : u' = muted (u.trace ++ unforwarded evs) d s') : Mutes base d s' u' := by
  obtain ⟨evs', htrace, rfl⟩ := h
  refine ⟨evs' ++ evs, by rw [hs, htrace, List.append_assoc], ?_⟩
  rw [hu]
  simp [muted]

/-- Both states are updated alike, and put out nothing. -/
theorem Mutes.silent {s' u' : State} (h : Mutes base d s u) (hs : s'.trace = s.trace) (hu : u' = muted u.trace d s') :
    Mutes base d s' u' :=
  h.emits [] (by rw [hs, List.append_nil]) (by rw [hu]; simp)

theorem Mutes.emit (h : Mutes base d s u) {e : Event} (he : isForward e = false) : Mutes base d (emit e s) (emit e u) := by
  refine h.emits [e] rfl ?_
  obtain ⟨evs, _, rfl⟩ := h
  have hkept : unforwarded [e] = [e] := by simp [he]
  rw [hkept]
  rfl

theorem unforwarded_elementEvents (p : Params) (e : Element) :
    unforwarded (elementEvents p e) = [.set e.addr e.bytes e.bytes.length] := by
  unfold elementEvents
  split <;> rfl

theorem unforwarded_requestEvents (p : Params) (bytes : List Byte) : unforwarded (requestEvents p bytes) = [.tx bytes] := by
  unfold requestEvents
  split <;> rfl

/-! ### The decoder -/

theorem Mutes.flush (h : Mutes base d s u) : Mutes base d (flush s) (flush u) := by
  obtain ⟨evs, htrace, rfl⟩ := id h
  cases hvalid : s.dec.addrValid with
  | true =>
    rw [flush_valid hvalid, flush_valid (s := muted _ d s) hvalid]
    refine h.emits (elementEvents s.params { addr := s.dec.addr, bytes := curValue s }) rfl ?_
    rw [unforwarded_elementEvents]
    rfl
  | false =>
    rw [flush_invalid hvalid, flush_invalid (s := muted _ d s) hvalid]
    exact h.silent rfl rfl

theorem Mutes.flushNonempty (h : Mutes base d s u) : Mutes base d (flushNonempty s) (flushNonempty u) := by
  have hsize : u.dec.size = s.dec.size := by
    obtain ⟨evs, _, rfl⟩ := h
    rfl
  unfold Machine.flushNonempty
  rw [hsize]
  split
  · exact h.flush
  · exact h

theorem Mutes.flushOnAddress (h : Mutes base d s u) (a : Addr) : Mutes base d (flushOnAddress a s) (flushOnAddress a u) := by
  unfold Machine.flushOnAddress
  split
  · exact h.flushNonempty
  · exact h

theorem Mutes.takeAddress (h : Mutes base d s u) (a : Addr) : Mutes base d (takeAddress a s) (takeAddress a u) := by
  obtain ⟨evs, htrace, rfl⟩ := h
  unfold Machine.takeAddress
  split
  · exact ⟨evs, htrace, rfl⟩
  · exact ⟨evs, htrace, rfl⟩

theorem Mutes.appendValue (h : Mutes base d s u) (v0 v1 : Byte) :
    Mutes base d (appendValue v0 v1 s) (appendValue v0 v1 u) := by
  obtain ⟨evs, htrace, rfl⟩ := h
  by_cases hroom : s.dec.size < s.params.maxValueSize - 1
  · rw [appendValue_of_room hroom, appendValue_of_room (s := muted _ d s) hroom]
    exact ⟨evs, htrace, rfl⟩
  · rw [appendValue_of_full hroom, appendValue_of_full (s := muted _ d s) hroom]
    exact ⟨evs, htrace, rfl⟩

theorem Mutes.stepGroup (h : Mutes base d s u) (g : Group) : Mutes base d (stepGroup s g) (stepGroup u g) := by
  obtain ⟨evs, htrace, heq⟩ := ((h.flushOnAddress g.addr).takeAddress g.addr).appendValue g.v0 g.v1
  refine ⟨evs, htrace, ?_⟩
  rw [Laws.stepGroup, heq]
  rfl

theorem Mutes.foldl (h : Mutes base d s u) (gs : List Group) :
    Mutes base d (gs.foldl Laws.stepGroup s) (gs.foldl Laws.stepGroup u) := by
  induction gs generalizing s u with
  | nil => exact h
  | cons g gs ih => exact ih (h.stepGroup g)

theorem Mutes.decodeElements (h : Mutes base d s u) (payload : List Byte) :
    Mutes base d (decodeElements payload s) (decodeElements payload u) := by
  have hstart : Mutes base d (decodeStart s) (decodeStart u) := by
    obtain ⟨evs, htrace, rfl⟩ := h
    exact ⟨evs, htrace, rfl⟩
  rw [decodeElements_eq, decodeElements_eq]
  exact (hstart.foldl _).flushNonempty

/-! ### The instructions -/

theorem Mutes.setHandled (h : Mutes base d s u) (v : Bool) : Mutes base d (setHandled v s) (setHandled v u) := by
  obtain ⟨evs, htrace, rfl⟩ := h
  exact ⟨evs, htrace, rfl⟩

theorem Mutes.raise (h : Mutes base d s u) (c : Condition) : Mutes base d (raise c s) (raise c u) := by
  obtain ⟨evs, htrace, rfl⟩ := h
  exact ⟨evs, htrace, rfl⟩

theorem Mutes.handleData (h : Mutes base d s u) (payload : List Byte) :
    Mutes base d (handleData payload s) (handleData payload u) :=
  (Mutes.decodeElements (h.emit rfl) payload).setHandled true

theorem Mutes.handleUnhandled (h : Mutes base d s u) (cmd : Byte) :
    Mutes base d (handleUnhandled cmd s) (handleUnhandled cmd u) :=
  (Mutes.setHandled (h.emit rfl) false).raise _

theorem Mutes.fallBackToAck (h : Mutes base d s u) (c : Condition) :
    Mutes base d (fallBackToAck c s) (fallBackToAck c u) :=
  (h.raise c).emit rfl

theorem Mutes.sendStaged (h : Mutes base d s u) (cmd : Byte) (data : List Byte) :
    Mutes base d (sendStaged (stageRequest cmd data s)) (sendStaged (stageRequest cmd data u)) := by
  obtain ⟨evs, htrace, rfl⟩ := id h
  rw [sendStaged_eq, sendStaged_eq]
  refine h.emits (requestEvents s.params (stagedFrame (stageRequest cmd data s))) rfl ?_
  rw [unforwarded_requestEvents]
  rfl

theorem Mutes.sendReadRequest (h : Mutes base d s u) (ident : Addr) :
    Mutes base d (sendReadRequest ident s) (sendReadRequest ident u) := by
  have hsent := h.sendStaged s.params.cmdReadreq (requestData ident [])
  obtain ⟨evs, _, rfl⟩ := h
  exact hsent

theorem Mutes.sendWriteRequest (h : Mutes base d s u) (ident : Addr) (value : List Byte) :
    Mutes base d (sendWriteRequest ident value s) (sendWriteRequest ident value u) := by
  have hsent := h.sendStaged s.params.cmdWritereq (requestData ident value)
  obtain ⟨evs, _, rfl⟩ := h
  exact hsent

theorem Mutes.callExpired (h : Mutes base d s u) (kind : StoreKind) :
    Mutes base d (callExpired kind s) (callExpired kind u) := by
  refine h.emits [.getExp kind (expiredAnswer kind s)] rfl ?_
  obtain ⟨evs, _, rfl⟩ := h
  rfl

theorem Mutes.callElement (h : Mutes base d s u) (index : Nat) :
    Mutes base d (callElement index s) (callElement index u) := by
  refine h.emits [.getElem index (elementAnswer index s)] rfl ?_
  obtain ⟨evs, _, rfl⟩ := h
  rfl

theorem Mutes.callSize (h : Mutes base d s u) (index : Nat) : Mutes base d (callSize index s) (callSize index u) := by
  refine h.emits [.getSize index (sizeAnswer index s)] rfl ?_
  obtain ⟨evs, _, rfl⟩ := h
  rfl

theorem Mutes.store (h : Mutes base d s u) : u.store = s.store := by
  obtain ⟨evs, _, rfl⟩ := h
  rfl

theorem Mutes.acquire (h : Mutes base d s u) (kind : StoreKind) : Mutes base d (acquire kind s) (acquire kind u) := by
  have hgot : expiredAnswer kind u = expiredAnswer kind s := by rw [expiredAnswer, expiredAnswer, h.store]
  unfold Machine.acquire
  rw [hgot]
  cases expiredAnswer kind s with
  | none => exact h.callExpired kind
  | some index => exact (h.callExpired kind).callElement index

end Doubles

/-! ### Outcomes -/

/-- Where the first outcome goes on, the second goes on to the double. -/
def MutesOutcome (base : List Event) (d : DebugPort) (o o' : Host.Outcome State Fault Refusal) : Prop :=
  ∀ s, o = .next s → ∃ u, o' = .next u ∧ Mutes base d s u

section Outcomes

variable {base : List Event} {d : DebugPort} {s u : State}

theorem Mutes.next (h : Mutes base d s u) : MutesOutcome base d (.next s) (.next u) := fun v hv => by
  cases hv
  exact ⟨u, rfl, h⟩

theorem MutesOutcome.andThen {o o' : Host.Outcome State Fault Refusal} {f : State → State} (h : MutesOutcome base d o o')
    (hf : ∀ s u, Mutes base d s u → Mutes base d (f s) (f u)) : MutesOutcome base d (andThen o f) (andThen o' f) := by
  intro v hv
  obtain ⟨s, rfl, rfl⟩ := andThen_eq_next hv
  obtain ⟨u, rfl, hsu⟩ := h s rfl
  exact ⟨f u, rfl, hf s u hsu⟩

theorem mutesOutcome_readreq (h : Mutes base d s u) (payload : List Byte) :
    MutesOutcome base d (exec (.readreq payload) s) (exec (.readreq payload) u) := by
  have hacquired := acquired_congr h.store .read
  have hacquire := (h.acquire .read).setHandled true
  cases ha : acquired .read s with
  | failed c =>
    rw [exec_readreq_of_failed ha, exec_readreq_of_failed (hacquired.trans ha)]
    exact (hacquire.fallBackToAck c).next
  | entry index e =>
    rw [exec_readreq_of_entry ha, exec_readreq_of_entry (hacquired.trans ha)]
    exact (hacquire.sendReadRequest e.identifier).next

theorem mutesOutcome_writeEntry (h : Mutes base d s u) (index size : Nat) (e : IoElement) :
    MutesOutcome base d (writeEntry index size e s) (writeEntry index size e u) := by
  have hbound : tooLong size u = tooLong size s := by
    obtain ⟨evs, _, rfl⟩ := h
    rfl
  unfold writeEntry
  rw [hbound]
  split
  · exact (h.fallBackToAck _).next
  · split
    · exact fun v hv => by cases hv
    · exact (h.sendWriteRequest _ _).next

theorem mutesOutcome_writereq (h : Mutes base d s u) (payload : List Byte) :
    MutesOutcome base d (exec (.writereq payload) s) (exec (.writereq payload) u) := by
  have hacquired := acquired_congr h.store .readWrite
  have hacquire := h.acquire .readWrite
  cases ha : acquired .readWrite s with
  | failed c =>
    rw [exec_writereq_of_failed ha, exec_writereq_of_failed (hacquired.trans ha)]
    exact ((hacquire.setHandled true).fallBackToAck c).next
  | entry index e =>
    rw [exec_writereq_of_entry ha, exec_writereq_of_entry (hacquired.trans ha), sizeAnswer_congr hacquire.store]
    exact mutesOutcome_writeEntry ((hacquire.callSize index).setHandled true) _ _ e

/-- A received instruction (44 R200). -/
theorem mutesOutcome_inbound (h : Mutes base d s u) (p : Params) (cmd : Byte) (payload : List Byte) :
    MutesOutcome base d (exec (inboundInstr p cmd payload) s) (exec (inboundInstr p cmd payload) u) := by
  rw [inboundInstr]
  cases classify p cmd with
  | datablock => exact (h.handleData payload).next
  | readdata => exact (h.handleData payload).next
  | readreq => exact mutesOutcome_readreq h payload
  | writereq => exact mutesOutcome_writereq h payload
  | ack => exact (h.handleUnhandled _).next
  | nak => exact (h.handleUnhandled _).next
  | unknown => exact (h.handleUnhandled cmd).next

theorem mutesOutcome_dispatch (h : Mutes base d s u) : MutesOutcome base d (dispatch s) (dispatch u) := by
  have hfetch : fetchInstr u = fetchInstr s ∧ u.rx.len = s.rx.len ∧ u.params.maxData = s.params.maxData := by
    obtain ⟨evs, _, rfl⟩ := h
    exact ⟨rfl, rfl, rfl⟩
  obtain ⟨hinstr, hlen, hmax⟩ := hfetch
  unfold dispatch
  rw [hinstr, hlen, hmax]
  split
  · exact mutesOutcome_inbound h _ _ _
  · exact fun v hv => by cases hv

/-- Frame completion (40 R131). -/
theorem mutesOutcome_csumByte (h : Mutes base d s u) (b : Byte) : MutesOutcome base d (csumByte b s) (csumByte b u) := by
  have hlatch : Mutes base d (latchVerdict b s) (latchVerdict b u) := by
    obtain ⟨evs, htrace, rfl⟩ := h
    exact ⟨evs, htrace, rfl⟩
  have hsame : verdict b u = verdict b s ∧ invalidCondition b u = invalidCondition b s := by
    obtain ⟨evs, _, rfl⟩ := h
    exact ⟨rfl, rfl⟩
  have hreport : ∀ v w, Mutes base d v w → Mutes base d (reportStatus v) (reportStatus w) := fun v w hvw => by
    have hflags : w.flags = v.flags := by
      obtain ⟨evs, _, rfl⟩ := hvw
      rfl
    rw [reportStatus, reportStatus, hflags]
    exact hvw.emit rfl
  obtain ⟨hverdict, hcond⟩ := hsame
  cases hv : verdict b s with
  | true =>
    rw [csumByte_of_valid hv, csumByte_of_valid (hverdict.trans hv)]
    exact (mutesOutcome_dispatch hlatch).andThen hreport
  | false =>
    rw [csumByte_of_invalid hv, csumByte_of_invalid (hverdict.trans hv), hcond]
    exact (hreport _ _ ((hlatch.raise _).emit rfl)).next

theorem mutesOutcome_receiveByte (h : Mutes base d s u) (b : Byte) :
    MutesOutcome base d (receiveByte b s) (receiveByte b u) := by
  have hphase : u.rx.phase = s.rx.phase := by
    obtain ⟨evs, _, rfl⟩ := h
    rfl
  by_cases hcsum : s.rx.phase = .csum
  · rw [receiveByte_csum hcsum, receiveByte_csum (hphase.trans hcsum)]
    exact mutesOutcome_csumByte h b
  · rw [receiveByte_assembles hcsum, receiveByte_assembles (hphase ▸ hcsum)]
    obtain ⟨evs, htrace, rfl⟩ := h
    exact Mutes.next ⟨evs, htrace, rfl⟩

theorem debugTexts_muted (trace : List Event) (d : DebugPort) (s : State) : debugTexts (muted trace d s) = muted trace d s :=
  if_neg Bool.false_ne_true

/-- The debug texts of a step: the double puts out none. -/
theorem Mutes.debugTexts (h : Mutes base d s u) : Mutes base d (debugTexts s) (debugTexts u) := by
  obtain ⟨evs, htrace, rfl⟩ := h
  refine ⟨evs, by rw [debugTexts_trace, htrace], ?_⟩
  rw [debugTexts_muted, debugTexts_eq]
  rfl

theorem Mutes.taking (h : Mutes base d s u) (rest : List Input) : Mutes base d (s.taking rest) (u.taking rest) := by
  refine Mutes.debugTexts ?_
  obtain ⟨evs, htrace, rfl⟩ := h
  exact ⟨evs, htrace, rfl⟩

theorem unforwarded_registrations (entries : List (SentinelType × Nat)) :
    unforwarded (entries.map fun entry => Event.setErr entry.1 entry.2) =
      entries.map fun entry => Event.setErr entry.1 entry.2 :=
  List.filter_eq_self.mpr fun e he => by
    obtain ⟨entry, _, rfl⟩ := List.mem_map.mp he
    rfl

theorem Mutes.startUp (h : Mutes base d s u) : Mutes base d (startUp s) (startUp u) := by
  rw [startUp_eq, startUp_eq]
  refine h.debugTexts.emits (s.params.errorSentinels.map fun entry => Event.setErr entry.1 entry.2) (by simp) ?_
  obtain ⟨evs, _, rfl⟩ := h
  rw [unforwarded_registrations, debugTexts_muted, debugTexts_eq s]
  rfl

/-- A step of the double does what the step does. -/
theorem mutesOutcome_step (h : Mutes base d s u) : MutesOutcome base d (step s) (step u) := by
  have hsame : u.startPending = s.startPending ∧ u.input = s.input := by
    obtain ⟨evs, _, rfl⟩ := h
    exact ⟨rfl, rfl⟩
  obtain ⟨hstart, hin⟩ := hsame
  cases hpending : s.startPending with
  | true =>
    rw [step_startPending hpending, step_startPending (hstart.trans hpending)]
    exact h.startUp.next
  | false =>
    match hinput : s.input with
    | [] =>
      rw [step_idle hpending hinput, step_idle (hstart.trans hpending) (hin.trans hinput)]
      exact h.next
    | .reset :: rest =>
      rw [step_input hpending hinput, step_input (hstart.trans hpending) (hin.trans hinput)]
      obtain ⟨evs, htrace, heq⟩ := h.taking rest
      rw [heq]
      exact Mutes.next ⟨evs, htrace, rfl⟩
    | .byte b :: rest =>
      rw [step_input hpending hinput, step_input (hstart.trans hpending) (hin.trans hinput)]
      exact mutesOutcome_receiveByte (h.taking rest) b

end Outcomes

/-- Settles O47: the state without hooks is the double of the state at its own trace, and the step keeps it so. -/
theorem hooksHaveNoOtherEffect : Obligations.HooksHaveNoOtherEffect := by
  unfold Obligations.HooksHaveNoOtherEffect
  intro s t hstep
  obtain ⟨u, hmuted, evs, htrace, rfl⟩ := mutesOutcome_step (mutes_withoutHooks s) t hstep
  exact ⟨evs, htrace, hmuted⟩

end Sys2Proof
end

