-- ==== Sys2Proof/Proofs/Unspecified.lean ====
section
/-! PROOFS. No rule reads an unspecified register (10 R39): from two states that no run tells apart, every step goes the same way,
to states that again are such; O46. -/

namespace Sys2Proof

open Sys2Proof.Machine Sys2Proof.Safety Sys2Proof.Laws

/-! ### While a frame is handled -/

/-- Two states in HUNT that agree on flags and surroundings, with canonical buffers: nothing else is live while a frame is
handled, but for the accumulator of a decode. -/
structure Twins (s t : State) : Prop where
  surroundings : SameSurroundings s t
  leftPhase    : s.rx.phase = .hunt
  rightPhase   : t.rx.phase = .hunt
  flags        : s.flags = t.flags
  left         : Canonical s
  right        : Canonical t

/-- In the phases up to the command byte no frame register but the phase is live (10 R39). -/
theorem sameLive_of_dead {s t : State} (h : s.rx.phase = t.rx.phase)
    (hdead : s.rx.phase = .hunt ∨ s.rx.phase = .pfx1 ∨ s.rx.phase = .pfx2 ∨ s.rx.phase = .cmd) : SameLive s t := by
  refine ⟨h, ?_⟩
  rcases hdead with h | h | h | h <;> (rw [h]; trivial)

theorem Twins.alike {s t : State} (h : Twins s t) : Alike s t :=
  ⟨h.surroundings, sameLive_of_dead (h.leftPhase.trans h.rightPhase.symm) (.inl h.leftPhase), h.left, h.right⟩

section Handling

variable {s t : State}

theorem Twins.emits (h : Twins s t) (evs : List Event) :
    Twins { s with trace := s.trace ++ evs } { t with trace := t.trace ++ evs } where
  surroundings := { h.surroundings with trace := congrArg (· ++ evs) h.surroundings.trace }
  leftPhase := h.leftPhase
  rightPhase := h.rightPhase
  flags := h.flags
  left := h.left
  right := h.right

theorem Twins.emit (h : Twins s t) (e : Event) : Twins (emit e s) (emit e t) := h.emits [e]

theorem Twins.setHandled (h : Twins s t) (v : Bool) : Twins (setHandled v s) (setHandled v t) where
  surroundings := { h.surroundings with }
  leftPhase := h.leftPhase
  rightPhase := h.rightPhase
  flags := congrArg (fun f : FlagRegs => { f with handled := v }) h.flags
  left := h.left
  right := h.right

theorem Twins.raise (h : Twins s t) (c : Condition) : Twins (raise c s) (raise c t) where
  surroundings := { h.surroundings with }
  leftPhase := h.leftPhase
  rightPhase := h.rightPhase
  flags := congrArg (fun f : FlagRegs => { f with cond := c.cond }) h.flags
  left := h.left
  right := h.right

theorem Twins.reportStatus (h : Twins s t) : Twins (reportStatus s) (reportStatus t) := by
  rw [Machine.reportStatus, Machine.reportStatus, ← h.flags]
  exact h.emit _

theorem Twins.fallBackToAck (h : Twins s t) (c : Condition) : Twins (fallBackToAck c s) (fallBackToAck c t) :=
  (h.raise c).emit _

theorem Twins.handleUnhandled (h : Twins s t) (cmd : Byte) : Twins (handleUnhandled cmd s) (handleUnhandled cmd t) :=
  (Twins.setHandled (h.emit _) false).raise _

/-- Whatever the decoder's registers hold, with a canonical value buffer. -/
theorem Twins.withDecoder (h : Twins s t) {ds dt : DecRegs} (hds : ds.val.wf) (hdt : dt.val.wf) :
    Twins { s with dec := ds } { t with dec := dt } where
  surroundings := { h.surroundings with }
  leftPhase := h.leftPhase
  rightPhase := h.rightPhase
  flags := h.flags
  left := ⟨h.left.1, hds, h.left.2.2⟩
  right := ⟨h.right.1, hdt, h.right.2.2⟩

/-- Whatever the staging registers hold, with a canonical `txbuf`. -/
theorem Twins.withStaging (h : Twins s t) {rs rt : TxRegs} (hrs : rs.buf.wf) (hrt : rt.buf.wf) :
    Twins { s with tx := rs } { t with tx := rt } where
  surroundings := { h.surroundings with }
  leftPhase := h.leftPhase
  rightPhase := h.rightPhase
  flags := h.flags
  left := ⟨h.left.1, h.left.2.1, hrs⟩
  right := ⟨h.right.1, h.right.2.1, hrt⟩

/-! ### The decoder -/

/-- The accumulators agree: size, the address if one is held, and the bytes accumulated. -/
structure SameAccumulator (d d' : DecRegs) : Prop where
  size      : d.size = d'.size
  addrValid : d.addrValid = d'.addrValid
  addr      : d.addrValid = true → d.addr = d'.addr
  val       : ∀ a, a < d.size → d.val.read a = d'.val.read a

theorem curValue_congr (h : SameAccumulator s.dec t.dec) : curValue s = curValue t := by
  rw [curValue, curValue, ← h.size]
  exact Memory.readN_congr fun a _ ha => h.val a (by omega)

/-- Twins in a decode. -/
def DecodingTwins (s t : State) : Prop := Twins s t ∧ SameAccumulator s.dec t.dec

theorem DecodingTwins.flush (h : DecodingTwins s t) : DecodingTwins (flush s) (flush t) := by
  obtain ⟨htwins, hacc⟩ := h
  have hempty : SameAccumulator { s.dec with size := 0 } { t.dec with size := 0 } :=
    ⟨rfl, hacc.addrValid, hacc.addr, fun a ha => absurd ha (Nat.not_lt_zero a)⟩
  have hreset : Twins { s with dec := { s.dec with size := 0 } } { t with dec := { t.dec with size := 0 } } :=
    htwins.withDecoder htwins.left.2.1 htwins.right.2.1
  cases hvalid : s.dec.addrValid with
  | true =>
    have hevents : elementEvents t.params { addr := t.dec.addr, bytes := curValue t } =
        elementEvents s.params { addr := s.dec.addr, bytes := curValue s } := by
      rw [← htwins.surroundings.params, ← curValue_congr hacc, ← hacc.addr hvalid]
    rw [flush_valid hvalid, flush_valid (hacc.addrValid ▸ hvalid), hevents]
    exact ⟨hreset.emits _, hempty⟩
  | false =>
    rw [flush_invalid hvalid, flush_invalid (hacc.addrValid ▸ hvalid)]
    exact ⟨hreset, hempty⟩

theorem DecodingTwins.flushNonempty (h : DecodingTwins s t) : DecodingTwins (flushNonempty s) (flushNonempty t) := by
  unfold Machine.flushNonempty
  rw [← h.2.size]
  split
  · exact h.flush
  · exact h

/-- Both accumulators take the same two bytes. -/
theorem DecodingTwins.appendValue (h : DecodingTwins s t) (v0 v1 : Byte) :
    DecodingTwins (appendValue v0 v1 s) (appendValue v0 v1 t) := by
  obtain ⟨htwins, hacc⟩ := id h
  have hmax : t.params.maxValueSize = s.params.maxValueSize := by rw [htwins.surroundings.params]
  have hs := htwins.left.2.1
  have ht := htwins.right.2.1
  by_cases hroom : s.dec.size < s.params.maxValueSize - 1
  · rw [appendValue_of_room hroom, appendValue_of_room (s := t) (by rw [← hacc.size, hmax]; exact hroom)]
    refine ⟨htwins.withDecoder (Memory.wf_write _ _ (Memory.wf_write _ _ hs)) (Memory.wf_write _ _ (Memory.wf_write _ _ ht)),
      congrArg (· + 2) hacc.size, hacc.addrValid, hacc.addr, fun a ha => ?_⟩
    have ha : a < s.dec.size + 2 := ha
    simp only [Memory.read_write (Memory.wf_write _ _ hs), Memory.read_write (Memory.wf_write _ _ ht),
      Memory.read_write hs, Memory.read_write ht, ← hacc.size]
    split
    · rfl
    · split
      · rfl
      · exact hacc.val a (by omega)
  · rw [appendValue_of_full hroom, appendValue_of_full (s := t) (by rw [← hacc.size, hmax]; exact hroom)]
    exact h

/-- The position in the payload is no part of the accumulator. -/
theorem DecodingTwins.advanceGroup (h : DecodingTwins s t) : DecodingTwins (advanceGroup s) (advanceGroup t) :=
  ⟨h.1.withDecoder h.1.left.2.1 h.1.right.2.1, h.2.size, h.2.addrValid, h.2.addr, h.2.val⟩

theorem DecodingTwins.openElement (h : DecodingTwins s t) (a : Addr) : DecodingTwins (openElement a s) (openElement a t) := by
  obtain ⟨htwins, hacc⟩ := h.flushNonempty
  exact ⟨htwins.withDecoder htwins.left.2.1 htwins.right.2.1, hacc.size, rfl, fun _ => rfl, hacc.val⟩

theorem DecodingTwins.stepGroup (h : DecodingTwins s t) (g : Group) : DecodingTwins (stepGroup s g) (stepGroup t g) := by
  cases hg : g.isContinuation with
  | true =>
    rw [stepGroup_continuation hg, stepGroup_continuation hg]
    exact (h.appendValue _ _).advanceGroup
  | false =>
    rw [stepGroup_real hg, stepGroup_real hg]
    exact ((h.openElement g.addr).appendValue _ _).advanceGroup

theorem DecodingTwins.foldl (h : DecodingTwins s t) (gs : List Group) :
    DecodingTwins (gs.foldl Laws.stepGroup s) (gs.foldl Laws.stepGroup t) := by
  induction gs generalizing s t with
  | nil => exact h
  | cons g gs ih => exact ih (h.stepGroup g)

theorem Twins.decodeElements (h : Twins s t) (payload : List Byte) :
    Twins (decodeElements payload s) (decodeElements payload t) := by
  have hstart : DecodingTwins (decodeStart s) (decodeStart t) :=
    ⟨h.withDecoder h.left.2.1 h.right.2.1, rfl, rfl, fun hvalid => (by cases hvalid),
      fun a ha => absurd ha (Nat.not_lt_zero a)⟩
  rw [decodeElements_eq, decodeElements_eq]
  exact (hstart.foldl _).flushNonempty.1

theorem Twins.handleData (h : Twins s t) (payload : List Byte) : Twins (handleData payload s) (handleData payload t) :=
  (Twins.decodeElements (h.emit _) payload).setHandled true

/-! ### The requests -/

/-- What is read back of a staged request is what was staged, also where its length byte wraps. -/
theorem readN_staged {m : Memory} (hm : m.wf) {data : List Byte} {n : Nat} (hn : n ≤ data.length) :
    (m.writeN 0 data).readN 0 n = data.take n := by
  have hwhole := Memory.readN_writeN hm 0 data
  have hsplit := Memory.readN_append (m.writeN 0 data) 0 n (data.length - n)
  rw [Nat.add_sub_cancel' hn, hwhole] at hsplit
  calc (m.writeN 0 data).readN 0 n
      = ((m.writeN 0 data).readN 0 n ++ (m.writeN 0 data).readN (0 + n) (data.length - n)).take n :=
        (List.take_left' (Memory.length_readN _ _ _)).symm
    _ = data.take n := by rw [← hsplit]

theorem stagedFrame_congr (h : Twins s t) (cmd : Byte) (data : List Byte) :
    stagedFrame (stageRequest cmd data s) = stagedFrame (stageRequest cmd data t) := by
  have hle : (BitVec.ofNat 8 data.length).toNat ≤ data.length := by
    rw [BitVec.toNat_ofNat]
    exact Nat.mod_le _ _
  simp only [stagedFrame, stageRequest_params, stageRequest_tx, readN_staged h.left.2.2 hle, readN_staged h.right.2.2 hle,
    h.surroundings.params]

theorem Twins.sendStaged (h : Twins s t) (cmd : Byte) (data : List Byte) :
    Twins (sendStaged (stageRequest cmd data s)) (sendStaged (stageRequest cmd data t)) := by
  have hstaged : Twins (stageRequest cmd data s) (stageRequest cmd data t) :=
    h.withStaging (Memory.wf_writeN 0 data h.left.2.2) (Memory.wf_writeN 0 data h.right.2.2)
  have hevents : requestEvents (stageRequest cmd data t).params (stagedFrame (stageRequest cmd data t)) =
      requestEvents (stageRequest cmd data s).params (stagedFrame (stageRequest cmd data s)) := by
    rw [stagedFrame_congr h, hstaged.surroundings.params]
  rw [sendStaged_eq, sendStaged_eq, hevents]
  exact hstaged.emits _

theorem Twins.sendReadRequest (h : Twins s t) (ident : Addr) : Twins (sendReadRequest ident s) (sendReadRequest ident t) := by
  rw [Machine.sendReadRequest, Machine.sendReadRequest, ← h.surroundings.params]
  exact h.sendStaged _ _

theorem Twins.sendWriteRequest (h : Twins s t) (ident : Addr) (value : List Byte) :
    Twins (sendWriteRequest ident value s) (sendWriteRequest ident value t) := by
  rw [Machine.sendWriteRequest, Machine.sendWriteRequest, ← h.surroundings.params]
  exact h.sendStaged _ _

/-- The same store port on both sides. -/
theorem Twins.withStore (h : Twins s t) (st : StorePort) : Twins { s with store := st } { t with store := st } where
  surroundings := { h.surroundings with store := rfl }
  leftPhase := h.leftPhase
  rightPhase := h.rightPhase
  flags := h.flags
  left := h.left
  right := h.right

theorem Twins.callExpired (h : Twins s t) (kind : StoreKind) : Twins (callExpired kind s) (callExpired kind t) := by
  have hanswer : expiredAnswer kind t = expiredAnswer kind s := by
    rw [expiredAnswer, expiredAnswer, h.surroundings.store]
  rw [Machine.callExpired, Machine.callExpired, hanswer, ← h.surroundings.store]
  exact (h.withStore _).emit _

theorem Twins.callElement (h : Twins s t) (index : Nat) : Twins (callElement index s) (callElement index t) := by
  have hanswer : elementAnswer index t = elementAnswer index s := by
    rw [elementAnswer, elementAnswer, h.surroundings.store]
  rw [Machine.callElement, Machine.callElement, hanswer, ← h.surroundings.store]
  exact (h.withStore _).emit _

theorem Twins.callSize (h : Twins s t) (index : Nat) : Twins (callSize index s) (callSize index t) := by
  have hanswer : sizeAnswer index t = sizeAnswer index s := sizeAnswer_congr h.surroundings.store.symm index
  rw [Machine.callSize, Machine.callSize, hanswer, ← h.surroundings.store]
  exact (h.withStore _).emit _

theorem Twins.acquire (h : Twins s t) (kind : StoreKind) : Twins (acquire kind s) (acquire kind t) := by
  have hanswer : expiredAnswer kind t = expiredAnswer kind s := by
    rw [expiredAnswer, expiredAnswer, h.surroundings.store]
  unfold Machine.acquire
  rw [hanswer]
  cases expiredAnswer kind s with
  | none => exact h.callExpired kind
  | some index => exact (h.callExpired kind).callElement index

/-! ### Outcomes -/

theorem relOutcome_andThen {R R' : State → State → Prop} {o o' : Host.Outcome State Fault Refusal} {f : State → State}
    (h : RelOutcome R o o') (hf : ∀ s t, R s t → R' (f s) (f t)) : RelOutcome R' (andThen o f) (andThen o' f) := by
  cases o with
  | next s =>
    cases o' with
    | next t => exact hf s t h
    | fault b => cases h
    | refused b => cases h
  | fault a =>
    cases o' with
    | next t => cases h
    | fault b => exact h
    | refused b => cases h
  | refused a =>
    cases o' with
    | next t => cases h
    | fault b => cases h
    | refused b => exact h

theorem relOutcome_readreq (h : Twins s t) (payload : List Byte) :
    RelOutcome Twins (exec (.readreq payload) s) (exec (.readreq payload) t) := by
  have hacquired := acquired_congr h.surroundings.store.symm .read
  have hacquire := (h.acquire .read).setHandled true
  cases ha : acquired .read s with
  | failed c =>
    rw [exec_readreq_of_failed ha, exec_readreq_of_failed (hacquired.trans ha)]
    exact hacquire.fallBackToAck c
  | entry index e =>
    rw [exec_readreq_of_entry ha, exec_readreq_of_entry (hacquired.trans ha)]
    exact hacquire.sendReadRequest e.identifier

theorem relOutcome_writeEntry (h : Twins s t) (index size : Nat) (e : IoElement) :
    RelOutcome Twins (writeEntry index size e s) (writeEntry index size e t) := by
  have hbound : tooLong size t = tooLong size s := by rw [tooLong, tooLong, h.surroundings.params]
  unfold writeEntry
  rw [hbound]
  split
  · exact h.fallBackToAck _
  · split
    · exact rfl
    · exact h.sendWriteRequest _ _

theorem relOutcome_writereq (h : Twins s t) (payload : List Byte) :
    RelOutcome Twins (exec (.writereq payload) s) (exec (.writereq payload) t) := by
  have hacquired := acquired_congr h.surroundings.store.symm .readWrite
  have hacquire := h.acquire .readWrite
  cases ha : acquired .readWrite s with
  | failed c =>
    rw [exec_writereq_of_failed ha, exec_writereq_of_failed (hacquired.trans ha)]
    exact (hacquire.setHandled true).fallBackToAck c
  | entry index e =>
    rw [exec_writereq_of_entry ha, exec_writereq_of_entry (hacquired.trans ha),
      sizeAnswer_congr hacquire.surroundings.store.symm]
    exact relOutcome_writeEntry ((hacquire.callSize index).setHandled true) _ _ e

/-- A received instruction goes the same way from twins (44 R200). -/
theorem relOutcome_inbound (h : Twins s t) (p : Params) (cmd : Byte) (payload : List Byte) :
    RelOutcome Twins (exec (inboundInstr p cmd payload) s) (exec (inboundInstr p cmd payload) t) := by
  rw [inboundInstr]
  cases classify p cmd with
  | datablock => exact h.handleData payload
  | readdata => exact h.handleData payload
  | readreq => exact relOutcome_readreq h payload
  | writereq => exact relOutcome_writereq h payload
  | ack => exact h.handleUnhandled _
  | nak => exact h.handleUnhandled _
  | unknown => exact h.handleUnhandled cmd

end Handling

/-! ### Frame completion -/

section Step

variable {s t : State}

theorem twins_latchVerdict (h : Alike s t) {b : Byte} (hverdict : verdict b t = verdict b s) :
    Twins (latchVerdict b s) (latchVerdict b t) := by
  obtain ⟨hsurroundings, _, hs, ht⟩ := h
  refine ⟨{ hsurroundings with }, rfl, rfl, ?_, hs, ht⟩
  rw [latchVerdict_flags, latchVerdict_flags, hverdict]

/-- Completing a frame looks at command, running checksum, length, over-length mark and the payload only (40 R131). -/
theorem relOutcome_csumByte (h : Alike s t) (hphase : s.rx.phase = .csum) (b : Byte) :
    RelOutcome Alike (csumByte b s) (csumByte b t) := by
  obtain ⟨hsurroundings, hlive, _, _⟩ := id h
  have hparams := hsurroundings.params
  obtain ⟨_, hlive⟩ := hlive
  rw [hphase] at hlive
  obtain ⟨⟨hcmd, hxor⟩, ⟨hlen, _, hover⟩, hbytes⟩ := hlive
  have hverdict : verdict b t = verdict b s := by rw [verdict, verdict, hxor, hover]
  have hlatch := twins_latchVerdict h hverdict
  have hreport : ∀ v w, Twins v w → Alike (reportStatus v) (reportStatus w) := fun v w hvw => hvw.reportStatus.alike
  cases hv : verdict b s with
  | true =>
    rw [csumByte_of_valid hv, csumByte_of_valid (hverdict.trans hv)]
    refine relOutcome_andThen ?_ hreport
    by_cases hfit : s.rx.len.toNat ≤ s.params.maxData
    · have hpayload : rxPayload t = rxPayload s := by
        rw [rxPayload, rxPayload, ← hlen]
        exact (Memory.readN_congr fun i _ hi => hbytes i (by omega) (by omega)).symm
      have hfetch : fetchInstr (latchVerdict b t) = fetchInstr (latchVerdict b s) := by
        show inboundInstr t.params t.rx.cmd (rxPayload t) = inboundInstr s.params s.rx.cmd (rxPayload s)
        rw [hpayload, ← hparams, ← hcmd]
      rw [dispatch_of_fits (s := latchVerdict b s) hfit,
        dispatch_of_fits (s := latchVerdict b t) (by rw [hlen, hparams] at hfit; exact hfit), hfetch]
      exact relOutcome_inbound hlatch _ _ _
    · rw [dispatch_of_overrun (s := latchVerdict b s) hfit,
        dispatch_of_overrun (s := latchVerdict b t) (by rw [hlen, hparams] at hfit; exact hfit)]
      show Fault.bufferBounds s.rx.len.toNat s.params.maxData = .bufferBounds t.rx.len.toNat t.params.maxData
      rw [hlen, hparams]
  | false =>
    have hcond : invalidCondition b t = invalidCondition b s := by
      rw [invalidCondition, invalidCondition, hover, hlen, hxor]
    rw [csumByte_of_invalid hv, csumByte_of_invalid (hverdict.trans hv), hcond]
    exact hreport _ _ ((hlatch.raise _).emit _)

/-! ### A byte that completes no frame -/

theorem sameLive_huntRegs {p p' : Params} (hp : p = p') (b : Byte) (r r' : RxRegs) :
    SameLive { s with rx := huntRegs p b r } { t with rx := huntRegs p' b r' } := by
  subst hp
  unfold huntRegs
  split
  · exact sameLive_of_dead rfl (.inr (.inl rfl))
  · exact sameLive_of_dead rfl (.inl rfl)

theorem sameLive_prefixRegs {p p' : Params} {expected expected' : Byte} (hp : p = p') (hexpected : expected = expected')
    (b : Byte) {next : Phase} (hnext : next = .pfx2 ∨ next = .cmd) (r r' : RxRegs) :
    SameLive { s with rx := prefixRegs p expected next b r } { t with rx := prefixRegs p' expected' next b r' } := by
  subst hp hexpected
  unfold prefixRegs
  split
  · exact sameLive_huntRegs rfl b r r'
  · exact sameLive_of_dead rfl (.inr (.inr hnext))

theorem sameLive_lenRegs {p p' : Params} (hp : p = p') (b : Byte) {r r' : RxRegs} (hcmd : r.cmd = r'.cmd)
    (hxor : r.xor = r'.xor) : SameLive { s with rx := lenRegs p b r } { t with rx := lenRegs p' b r' } := by
  subst hp
  have hhead : r.cmd = r'.cmd ∧ r.xor ^^^ b = r'.xor ^^^ b := ⟨hcmd, by rw [hxor]⟩
  refine ⟨rfl, ?_⟩
  by_cases hb : b = 0
  · have hphase : (lenRegs p b r).phase = .csum := if_pos hb
    simp only [hphase]
    refine ⟨hhead, ⟨rfl, rfl, rfl⟩, fun i hi => ?_⟩
    have hi : i < b.toNat := hi
    rw [hb] at hi
    exact absurd hi (Nat.not_lt_zero i)
  · have hphase : (lenRegs p b r).phase = .data := if_neg hb
    simp only [hphase]
    exact ⟨hhead, ⟨rfl, rfl, rfl⟩, fun i hi => absurd hi (Nat.not_lt_zero i)⟩

/-- The byte just stored agrees, and those before it did (40 R130). -/
theorem read_dataRegs_congr (hs : s.rx.buf.wf) (ht : t.rx.buf.wf) (hparams : s.params = t.params)
    (hcnt : s.rx.cnt = t.rx.cnt) (hbytes : SameBytes s t s.rx.cnt.toNat) (b : Byte) {i : Nat}
    (hi : i < (s.rx.cnt + 1).toNat) (hfit : i < s.params.maxData) :
    (dataRegs s.params b s.rx).buf.read i = (dataRegs t.params b t.rx).buf.read i := by
  have hle : (s.rx.cnt + 1).toNat ≤ s.rx.cnt.toNat + 1 := by
    rw [BitVec.toNat_add]
    exact Nat.mod_le _ _
  rw [read_dataRegs hs, read_dataRegs ht, ← hcnt, ← hparams]
  split
  · rfl
  · exact hbytes i (by omega) hfit

theorem sameLive_dataRegs (hs : s.rx.buf.wf) (ht : t.rx.buf.wf) (hparams : s.params = t.params) (hhead : SameHead s t)
    (hlength : SameLength s t) (hbytes : SameBytes s t s.rx.cnt.toNat) (b : Byte) :
    SameLive { s with rx := dataRegs s.params b s.rx } { t with rx := dataRegs t.params b t.rx } := by
  obtain ⟨hcmd, hxor⟩ := hhead
  obtain ⟨hlen, hcnt, hover⟩ := hlength
  have hsame : (dataRegs s.params b s.rx).phase = (dataRegs t.params b t.rx).phase := by
    rw [dataRegs, dataRegs, hcnt, hlen]
  have hhead : SameHead { s with rx := dataRegs s.params b s.rx } { t with rx := dataRegs t.params b t.rx } :=
    ⟨hcmd, congrArg (· ^^^ b) hxor⟩
  have hlength : SameLength { s with rx := dataRegs s.params b s.rx } { t with rx := dataRegs t.params b t.rx } :=
    ⟨hlen, congrArg (· + 1) hcnt, hover⟩
  refine ⟨hsame, ?_⟩
  by_cases hlast : s.rx.cnt + 1 = s.rx.len
  · have hphase : (dataRegs s.params b s.rx).phase = .csum := if_pos hlast
    simp only [hphase]
    refine ⟨hhead, hlength, fun i hi hfit => read_dataRegs_congr hs ht hparams hcnt hbytes b ?_ hfit⟩
    rw [hlast]
    exact hi
  · have hphase : (dataRegs s.params b s.rx).phase = .data := if_neg hlast
    simp only [hphase]
    exact ⟨hhead, hlength, fun i hi hfit => read_dataRegs_congr hs ht hparams hcnt hbytes b hi hfit⟩

/-- One transition of the frame registers keeps the live ones alike (40 R125 to R130). -/
theorem sameLive_assemble (hlive : SameLive s t) (hs : s.rx.buf.wf) (ht : t.rx.buf.wf) (hparams : s.params = t.params)
    (hcsum : s.rx.phase ≠ .csum) (b : Byte) :
    SameLive { s with rx := assemble s.params b s.rx } { t with rx := assemble t.params b t.rx } := by
  obtain ⟨hsame, hlive⟩ := hlive
  cases hphase : s.rx.phase with
  | hunt =>
    rw [assemble_hunt hphase, assemble_hunt (hsame ▸ hphase)]
    exact sameLive_huntRegs hparams b _ _
  | pfx1 =>
    rw [assemble_pfx1 hphase, assemble_pfx1 (hsame ▸ hphase)]
    exact sameLive_prefixRegs hparams (congrArg Params.prefix1 hparams) b (.inl rfl) _ _
  | pfx2 =>
    rw [assemble_pfx2 hphase, assemble_pfx2 (hsame ▸ hphase)]
    exact sameLive_prefixRegs hparams (congrArg Params.prefix2 hparams) b (.inr rfl) _ _
  | cmd =>
    rw [assemble_cmd hphase, assemble_cmd (hsame ▸ hphase)]
    exact ⟨rfl, rfl, rfl⟩
  | len =>
    simp only [hphase] at hlive
    rw [assemble_len hphase, assemble_len (hsame ▸ hphase)]
    exact sameLive_lenRegs hparams b hlive.1 hlive.2
  | data =>
    simp only [hphase] at hlive
    obtain ⟨hhead, hlength, hbytes⟩ := hlive
    rw [assemble_data hphase, assemble_data (hsame ▸ hphase)]
    exact sameLive_dataRegs hs ht hparams hhead hlength hbytes b
  | csum => exact absurd hphase hcsum

theorem wf_assemble {r : RxRegs} (h : r.buf.wf) (p : Params) (b : Byte) : (assemble p b r).buf.wf := by
  by_cases hphase : r.phase = .data
  · rw [assemble_data hphase]
    exact wf_dataRegs h p b
  · rwa [buf_assemble_of_not_data hphase]

theorem relOutcome_receiveByte (h : Alike s t) (b : Byte) : RelOutcome Alike (receiveByte b s) (receiveByte b t) := by
  obtain ⟨hsurroundings, hlive, hs, ht⟩ := id h
  by_cases hcsum : s.rx.phase = .csum
  · rw [receiveByte_csum hcsum, receiveByte_csum (hlive.1 ▸ hcsum)]
    exact relOutcome_csumByte h hcsum b
  · rw [receiveByte_assembles hcsum, receiveByte_assembles (hlive.1 ▸ hcsum)]
    exact ⟨{ hsurroundings with }, sameLive_assemble hlive hs.1 ht.1 hsurroundings.params hcsum b,
      ⟨wf_assemble hs.1 _ b, hs.2⟩, ⟨wf_assemble ht.1 _ b, ht.2⟩⟩

/-! ### The step -/

/-- The debug texts are chosen by the debug port and its strap. -/
theorem alike_debugTexts (h : Alike s t) : Alike (debugTexts s) (debugTexts t) := by
  obtain ⟨hsurroundings, hlive, hs, ht⟩ := h
  have hdbg : (debugTexts s).dbg = (debugTexts t).dbg := by
    unfold debugTexts
    rw [hsurroundings.params, hsurroundings.dbg]
    split
    · rfl
    · exact hsurroundings.dbg
  rw [debugTexts_eq s, debugTexts_eq t, hdbg]
  exact ⟨{ hsurroundings with dbg := rfl }, hlive, hs, ht⟩

theorem alike_taking (h : Alike s t) (rest : List Input) : Alike (s.taking rest) (t.taking rest) := by
  obtain ⟨hsurroundings, hlive, hs, ht⟩ := h
  exact alike_debugTexts ⟨{ hsurroundings with input := rfl }, hlive, hs, ht⟩

theorem alike_startUp (h : Alike s t) : Alike (startUp s) (startUp t) := by
  obtain ⟨hsurroundings, hlive, hs, ht⟩ := alike_debugTexts h
  obtain ⟨hparams, _, _, _, htrace, _⟩ := h.1
  rw [startUp_eq, startUp_eq, hparams, htrace]
  exact ⟨{ hsurroundings with startPending := rfl, trace := rfl }, hlive, hs, ht⟩

/-- After `reset` every register of the block is the same. -/
theorem alike_assertReset (h : Alike s t) : Alike (assertReset s) (assertReset t) :=
  ⟨{ h.1 with startPending := rfl }, sameLive_of_dead rfl (.inl rfl), ⟨Memory.wf_nil, Memory.wf_nil, Memory.wf_nil⟩,
    ⟨Memory.wf_nil, Memory.wf_nil, Memory.wf_nil⟩⟩

end Step

/-- Settles O46, by the kinds of step. -/
theorem unspecifiedRegistersNeverShow : Obligations.UnspecifiedRegistersNeverShow := by
  unfold Obligations.UnspecifiedRegistersNeverShow
  intro s t h
  have hpending' := h.1.startPending
  have hinput' := h.1.input
  cases hpending : s.startPending with
  | true =>
    rw [step_startPending hpending, step_startPending (hpending'.symm.trans hpending)]
    exact alike_startUp h
  | false =>
    match hinput : s.input with
    | [] =>
      rw [step_idle hpending hinput, step_idle (hpending'.symm.trans hpending) (hinput'.symm.trans hinput)]
      exact h
    | .reset :: rest =>
      rw [step_input hpending hinput, step_input (hpending'.symm.trans hpending) (hinput'.symm.trans hinput)]
      exact alike_assertReset (alike_taking h rest)
    | .byte b :: rest =>
      rw [step_input hpending hinput, step_input (hpending'.symm.trans hpending) (hinput'.symm.trans hinput)]
      exact relOutcome_receiveByte (alike_taking h rest) b

end Sys2Proof
end
